-- ==== Sys2Proof/Word.lean ====
section
/-! DEFINITION. The word types of OWSEQ: every host-visible register is 8 bits wide and the register
window has 32 byte offsets (spec/00_scope.md R10). -/

namespace Sys2Proof

/-- A byte: the width of every register and of every line-port frame (R10, R11). -/
abbrev Byte := BitVec 8

/-- The 4-bit opcode field of a CMD byte and the register `op` (R43, R90). -/
abbrev Nibble := BitVec 4

/-- An offset into the 32-byte register window (R10, R18). -/
abbrev Offset := BitVec 5

end Sys2Proof
end

