-- ==== Sys2Proof/Config.lean ====
section
/-! DEFINITION. What the platform fixes and what the spec leaves open: the open parameters `BASE`,
`F_CLK` and `LINE` (spec/00_scope.md R9), the answers the line port allows (spec/20_memory.md R70) and
the values the spec leaves unspecified (spec/10_state.md R43, R44). Every `opaque` constant here is a
free value: it has no body, so no proof can learn what it is. -/

namespace Sys2Proof

/-- What the environment may answer to a request `Tx(b)` (R70). -/
inductive TxAnswer
  /-- The transport has taken the frame. -/
  | ok
  /-- The write exceeded the transport's timeout. -/
  | timeout
  /-- Any other transport failure. -/
  | ioError
  deriving DecidableEq, Repr, Inhabited

/-- What the environment may answer to a request `Rx` (R70). -/
inductive RxAnswer
  /-- The next received frame. In NORMAL configuration bits 7:6 are any value (R70). -/
  | byte (v : Byte)
  /-- No frame arrived within the transport's timeout. -/
  | timeout
  /-- Any other transport failure. -/
  | ioError
  deriving DecidableEq, Repr, Inhabited

/-- The result codes of R200 by name; their numeric values are `Machine.codeByte`. -/
inductive ResultCode
  | ok | nodevReset | nodevWrite | crcErr | unexpDev | timeout | ioErr | rangeErr | illCmd
  deriving DecidableEq, Repr, Inhabited

namespace Config

/-- `BASE`, the platform address of the register window (R9, R18). No rule depends on it (log 20). -/
opaque base : Nat

/-- `F_CLK`, the block's clock frequency (R9). No functional rule depends on it (log 20). -/
opaque fClk : Nat

/-- The oracle `LINE` for a request `Tx` (R9, R71): free draw number `n` (log 2). -/
opaque lineTx : Nat → TxAnswer

/-- The oracle `LINE` for a request `Rx` (R9, R71): free draw number `n` (log 2). -/
opaque lineRx : Nat → RxAnswer

/-- A byte the spec leaves unspecified after a block reset (R241): free value number `n` (log 7). -/
opaque unspecifiedByte : Nat → Byte

/-- A result code the spec leaves unspecified after a block reset (R241): free value `n` (log 7). -/
opaque unspecifiedCode : Nat → ResultCode

/-- The platform address of the register at a window offset (R18). -/
def windowAddress (off : Offset) : Nat := base + off.toNat

end Config

end Sys2Proof
end

