-- ==== Sys2Proof/Syntax.lean ====
section
/-! DEFINITION. The syntax: `Instr` has one constructor per row of spec/opcode_table.json, and `Code` is
what a row's bits are the bits of. The block fetches nothing (spec/20_memory.md R77): a row of format
CMD8 or REGWR is a host write, one of format REGRD a host read, and one of format BUSBYTE a byte the
sequencer itself puts on the line port or on the 1-Wire bus (spec/30_encoding.md R90, R95, R98). -/

namespace Sys2Proof

/-- The instructions, in the table's order. -/
inductive Instr
  /-- NOP, R130. -/
  | nop
  /-- RESET, R131. -/
  | reset
  /-- WBIT, R132. -/
  | wbit
  /-- XBYTE, R133. -/
  | xbyte
  /-- WRITE, R134. -/
  | write
  /-- READ, R135. -/
  | read
  /-- READROM, R170. -/
  | readrom
  /-- READTEMP, R180. -/
  | readtemp
  /-- ILLCMD.OPC: RSV = 0000 and OPC in 0x8 to 0xF; `v` is the whole CMD byte (R93). -/
  | illcmdOpc (v : Byte)
  /-- ILLCMD.RSV4: bit 4 of the CMD byte `v` is set (R93). -/
  | illcmdRsv4 (v : Byte)
  /-- ILLCMD.RSV5: bit 5 of the CMD byte `v` is set (R93). -/
  | illcmdRsv5 (v : Byte)
  /-- ILLCMD.RSV6: bit 6 of the CMD byte `v` is set (R93). -/
  | illcmdRsv6 (v : Byte)
  /-- ILLCMD.RSV7: bit 7 of the CMD byte `v` is set (R93). -/
  | illcmdRsv7 (v : Byte)
  /-- CRCIN: a host write of `v` to offset 0x07 (R154). -/
  | crcin (v : Byte)
  /-- CRCLD: a host write of `v` to offset 0x06 (R155). -/
  | crcld (v : Byte)
  /-- CRCRD: a host read of offset 0x06 (R156). -/
  | crcrd
  /-- BUS.RESETPULSE: the frame 0xF0 of busReset (R95, R125). -/
  | busResetpulse
  /-- BUS.SLOT1: the slot frame 0xFF of a 1 bit (R95, R127). -/
  | busSlot1
  /-- BUS.SLOT0: the slot frame 0x00 of a 0 bit (R95, R127). -/
  | busSlot0
  /-- OW.READROM: the 1-Wire command byte 0x33 (R98, R170). -/
  | owReadrom
  /-- OW.SKIPROM: the 1-Wire command byte 0xCC (R98, R180). -/
  | owSkiprom
  /-- OW.CONVERT: the 1-Wire command byte 0x44 (R98, R180). -/
  | owConvert
  /-- OW.READSP: the 1-Wire command byte 0xBE (R98, R180). -/
  | owReadsp
  deriving DecidableEq, Repr

/-- What the bits of an instruction stand in. The table's bits do not say which of the four it is: the
place where the byte appears does (log 11). -/
inductive Code
  /-- A host write of one byte to a window offset (R61). Offset 0x00 is CMD, format CMD8. -/
  | write (off : Offset) (v : Byte)
  /-- A host read of one byte at a window offset (R61). -/
  | read (off : Offset)
  /-- A frame the sequencer sends on the line port (R95). -/
  | frame (b : Byte)
  /-- A command byte the sequencer sends on the 1-Wire bus with a verified write (R98). -/
  | wire (b : Byte)
  deriving DecidableEq, Repr

end Sys2Proof
end

