-- ==== Sys2Proof/WellFormed.lean ====
section
/-! DEFINITION. Well-formed instructions. Only the ILLCMD rows carry a byte that their pattern limits
(spec/30_encoding.md R93): the byte must match its row's pattern, and, since the rows overlap, no row
that stands before it in the table (log 12). -/

namespace Sys2Proof

/-- Whether an instruction's operand is one its row of the table admits and decoding gives back. -/
def Instr.wf : Instr → Bool
  | .illcmdOpc v => v &&& 0xF8#8 == 0x08#8
  | .illcmdRsv4 v => v.getLsbD 4
  | .illcmdRsv5 v => v.getLsbD 5 && !v.getLsbD 4
  | .illcmdRsv6 v => v.getLsbD 6 && !v.getLsbD 4 && !v.getLsbD 5
  | .illcmdRsv7 v => v.getLsbD 7 && !v.getLsbD 4 && !v.getLsbD 5 && !v.getLsbD 6
  | .nop | .reset | .wbit | .xbyte | .write | .read | .readrom | .readtemp => true
  | .crcin _ | .crcld _ | .crcrd => true
  | .busResetpulse | .busSlot1 | .busSlot0 => true
  | .owReadrom | .owSkiprom | .owConvert | .owReadsp => true

end Sys2Proof
end

