-- ==== Sys2Proof/Decode.lean ====
section
/-! DEFINITION. Decoding, total on every code and rejecting by name, and after it the encoder, both
written from spec/30_encoding.md R91, R93, R95, R98 and the REGWR and REGRD rows of
spec/opcode_table.json. -/

namespace Sys2Proof

/-- Why a code is no row of the opcode table. -/
inductive Reject
  /-- A host write of a register the table has no row for (DATA, a read-only or a reserved offset); the
  access itself is performed by R61. -/
  | plainWrite (off : Offset)
  /-- A host read of an offset other than CRC; the access itself is performed by R61. -/
  | plainRead (off : Offset)
  /-- A frame the block never sends (R95). -/
  | notAFrame (b : Byte)
  /-- A command byte the block's own sequences never send (R98). -/
  | notACommandByte (b : Byte)
  deriving DecidableEq, Repr

/-- A byte written to CMD (R91, R93). Every byte from 0x08 on is illegal; it is read as the first ILLCMD
row of the table that matches it (log 12). -/
def decodeCmd (v : Byte) : Instr :=
  if v = 0x00#8 then .nop
  else if v = 0x01#8 then .reset
  else if v = 0x02#8 then .wbit
  else if v = 0x03#8 then .xbyte
  else if v = 0x04#8 then .write
  else if v = 0x05#8 then .read
  else if v = 0x06#8 then .readrom
  else if v = 0x07#8 then .readtemp
  else if v &&& 0xF8#8 = 0x08#8 then .illcmdOpc v
  else if v.getLsbD 4 then .illcmdRsv4 v
  else if v.getLsbD 5 then .illcmdRsv5 v
  else if v.getLsbD 6 then .illcmdRsv6 v
  else .illcmdRsv7 v

/-- A line frame (R95). -/
def decodeFrame (b : Byte) : Except Reject Instr :=
  if b = 0xF0#8 then .ok .busResetpulse
  else if b = 0xFF#8 then .ok .busSlot1
  else if b = 0x00#8 then .ok .busSlot0
  else .error (.notAFrame b)

/-- A 1-Wire command byte of the block's own sequences (R98). -/
def decodeWire (b : Byte) : Except Reject Instr :=
  if b = 0x33#8 then .ok .owReadrom
  else if b = 0xCC#8 then .ok .owSkiprom
  else if b = 0x44#8 then .ok .owConvert
  else if b = 0xBE#8 then .ok .owReadsp
  else .error (.notACommandByte b)

/-- The decoder. -/
def decode : Code → Except Reject Instr
  | .write off v =>
    if off = 0x00#5 then .ok (decodeCmd v)
    else if off = 0x06#5 then .ok (.crcld v)
    else if off = 0x07#5 then .ok (.crcin v)
    else .error (.plainWrite off)
  | .read off => if off = 0x06#5 then .ok .crcrd else .error (.plainRead off)
  | .frame b => decodeFrame b
  | .wire b => decodeWire b

/-- The encoder: the code of an instruction, from the table's rows. -/
def encode : Instr → Code
  | .nop => .write 0x00#5 0x00#8
  | .reset => .write 0x00#5 0x01#8
  | .wbit => .write 0x00#5 0x02#8
  | .xbyte => .write 0x00#5 0x03#8
  | .write => .write 0x00#5 0x04#8
  | .read => .write 0x00#5 0x05#8
  | .readrom => .write 0x00#5 0x06#8
  | .readtemp => .write 0x00#5 0x07#8
  | .illcmdOpc v => .write 0x00#5 v
  | .illcmdRsv4 v => .write 0x00#5 v
  | .illcmdRsv5 v => .write 0x00#5 v
  | .illcmdRsv6 v => .write 0x00#5 v
  | .illcmdRsv7 v => .write 0x00#5 v
  | .crcin v => .write 0x07#5 v
  | .crcld v => .write 0x06#5 v
  | .crcrd => .read 0x06#5
  | .busResetpulse => .frame 0xF0#8
  | .busSlot1 => .frame 0xFF#8
  | .busSlot0 => .frame 0x00#8
  | .owReadrom => .wire 0x33#8
  | .owSkiprom => .wire 0xCC#8
  | .owConvert => .wire 0x44#8
  | .owReadsp => .wire 0xBE#8

/-- The code a table word of one byte stands for. The byte alone does not say its format, and rows of
different formats share bytes; a word is read as the row that fixes the most of its bits, the first such
row of the table (log 11): the eight commands and the six BUSBYTE rows that no command shares all eight bits
with, then CRCIN and CRCLD (five bits; their data byte is no part of the word, and 0), else a CMD byte. -/
def tableCode (w : Byte) : Code :=
  if w = 0xF0#8 ∨ w = 0xFF#8 then .frame w
  else if w = 0x33#8 ∨ w = 0xCC#8 ∨ w = 0x44#8 ∨ w = 0xBE#8 then .wire w
  else if w.toNat < 8 then .write 0x00#5 w
  else if w &&& 0x1F#8 = 0x07#8 then .write 0x07#5 0x00#8
  else if w &&& 0x1F#8 = 0x06#8 then .write 0x06#5 0x00#8
  else .write 0x00#5 w

/-- The instruction the decoder reads from a word numbered as the opcode table numbers it. Every row of
the table has 8 bits; a word of another length, or one that does not fit its length, is refused. -/
def decodeTableWord (nbits w : Nat) : Option Instr :=
  if nbits = 8 ∧ w < 256 then (decode (tableCode (BitVec.ofNat 8 w))).toOption else none

end Sys2Proof
end

