-- ==== Sys2Proof/Machine/State.lean ====
section
/-! DEFINITION. The machine's state as plain data: every register and every piece of internal state of
spec/10_state.md, the outstanding line request, the conversion timer, and the script of what the world
outside the block does. INVENTORY.md lists each with its rule and reset value. -/

namespace Sys2Proof.Machine

/-- The two line configurations (R69); STATUS.LCFG shows which (R31). -/
inductive LineCfg
  | normal | reset
  deriving DecidableEq, Repr

/-- STATUS (R23): eight one-bit fields, none of them writable by the host. `lcfg` is the live line
configuration, one bit stored once (R31, R47). -/
structure Status where
  busy : Bool
  done : Bool
  err : Bool
  pres : Bool
  romv : Bool
  tempv : Bool
  cmderr : Bool
  lcfg : LineCfg
  deriving DecidableEq, Repr

/-- The four calls of busReset in the commands' pseudocode (R131, R170, R180 steps 1 and 5). -/
inductive ResetCall
  | cmd | rom | temp1 | temp2
  deriving DecidableEq, Repr

/-- The calls of writeByte (itself, or through owWrite and owRead) in the commands' pseudocode. -/
inductive ByteCall
  /-- XBYTE: `writeByte(d)` (R133). -/
  | xbyte
  /-- WRITE: `writeByte(d)` and the comparison (R134). -/
  | write
  /-- READ: `owRead()` (R135). -/
  | read
  /-- READROM: `owWrite(0x33)` (R170). -/
  | romCommand
  /-- READROM: the k-th `owRead()` (R170). -/
  | romByte (k : Fin 8)
  /-- READTEMP step 2: `owWrite(0xCC)` (R180). -/
  | tempSkip1
  /-- READTEMP step 3: `owWrite(0x44)` (R180). -/
  | tempConvert
  /-- READTEMP step 6: `owWrite(0xCC)` (R180). -/
  | tempSkip2
  /-- READTEMP step 7: `owWrite(0xBE)` (R180). -/
  | tempReadSp
  /-- READTEMP step 8: the k-th `owRead()` (R180). -/
  | tempByte (k : Fin 9)
  deriving DecidableEq, Repr

/-- `seq`, the sequencer's position (R42): IDLE, or the micro-operation of the running command's
pseudocode that is to be issued or is outstanding, or the commit that ends the command (log 3, log 4). -/
inductive Seq
  /-- IDLE. -/
  | idle
  /-- busReset's `LineCfg(RESET)` (R125). -/
  | cfgReset (c : ResetCall)
  /-- busReset's `LineTx(0xF0)`, inside the try (R125). -/
  | txPulse (c : ResetCall)
  /-- busReset's `e <- LineRx()`, inside the try (R125). -/
  | rxEcho (c : ResetCall)
  /-- busReset's finally, `LineCfg(NORMAL)`; `raised` says that the try was left by a raise (R125). -/
  | cfgNormal (c : ResetCall) (raised : Bool)
  /-- slot's `LineTx` (R126). -/
  | txBit
  /-- slot's `LineRx` (R126). -/
  | rxBit
  /-- writeByte's `LineTx` for slot i (R127). -/
  | txByte (c : ByteCall) (i : Fin 8)
  /-- writeByte's `LineRx` for slot i (R127). -/
  | rxByte (c : ByteCall) (i : Fin 8)
  /-- READTEMP step 4, `Wait(T_CONV)` (R123, R180). -/
  | wait
  /-- The command has ended with the code in `s_code`; its commit is the next step (R45, R124). -/
  | commit
  deriving DecidableEq, Repr

/-- `pend`, the outstanding micro-operation (R48). -/
inductive Pend
  | none
  | tx (b : Byte)
  | rx
  | wait
  deriving DecidableEq, Repr

/-- The conversion timer (R211). The model is untimed, so it holds no elapsed time (R253, log 17). -/
inductive Timer
  | stopped | running
  deriving DecidableEq, Repr

/-- The running command's own state, unobservable while BUSY = 0: the latched opcode and operand (R43),
the staged results (R44), and the locals of the pseudocode that live across a micro-operation (log 15). -/
structure Work where
  /-- The latched opcode (R43). -/
  op : Nibble
  /-- The latched operand (R43). -/
  d : Byte
  sPres : Bool
  sEcho : Byte
  sRx : Byte
  sRxv : Bool
  sRom : Vector Byte 8
  sSp : Vector Byte 9
  sCode : ResultCode
  /-- busReset's `e` (R125). -/
  e : Byte
  /-- The byte writeByte is sending (R127). -/
  b : Byte
  /-- writeByte's accumulator (R127). -/
  acc : Byte
  deriving DecidableEq, Repr

/-- A host access as the host issues it (R61). Its width is the number of bytes; only one-byte accesses
inside the window are accesses to the block (R62). -/
inductive Access
  /-- `MemWrite(off, bytes.length, bytes)`. -/
  | write (off : Nat) (bytes : List Byte)
  /-- `MemRead(off, n)`. -/
  | read (off n : Nat)
  deriving DecidableEq, Repr

/-- One entry of the script: what happens next outside the sequencer, or that nothing does (log 1). -/
inductive Input
  /-- A host access (R61). -/
  | host (a : Access)
  /-- The host assembly's `poll`: read STATUS until BUSY reads 0 (R102). -/
  | poll
  /-- No scripted event: the sequencer moves if it can, else the agent it waits for does. -/
  | tick
  /-- The environment answers a request `Tx` (R70). -/
  | tx (a : TxAnswer)
  /-- The environment answers a request `Rx` (R70). -/
  | rx (a : RxAnswer)
  /-- The conversion timer has run for `ms` milliseconds since the Wait began (R123, R211). -/
  | timer (ms : Nat)
  /-- The reset input (R240). -/
  | blockReset
  deriving DecidableEq, Repr

/-- The state of OWSEQ (INVENTORY.md, heading State). -/
structure State where
  /-- STATUS, offset 0x01 (R23). -/
  status : Status
  /-- RESULT, offset 0x02 (R32). -/
  result : Byte
  /-- DATA, offset 0x03 (R33). -/
  data : Byte
  /-- RXDATA, offset 0x04 (R34). -/
  rxdata : Byte
  /-- ECHO, offset 0x05 (R35). -/
  echo : Byte
  /-- CRC, offset 0x06 (R36). -/
  crc : Byte
  /-- ROM0 to ROM7, offsets 0x08 to 0x0F (R38). -/
  rom : Vector Byte 8
  /-- SP0 to SP8, offsets 0x10 to 0x18 (R39). -/
  sp : Vector Byte 9
  /-- The sequencer's position (R42). -/
  seq : Seq
  /-- The running command's own state (R43, R44). -/
  work : Work
  /-- The outstanding micro-operation (R48). -/
  pend : Pend
  /-- The conversion timer (R211). -/
  timer : Timer
  /-- The model's own: the byte the last host read returned (log 10). -/
  rdata : Option Byte
  /-- The model's own: the script of the world outside (log 1). -/
  inputs : List Input
  /-- The model's own: the number of the next free value (log 2). -/
  draws : Nat
  deriving DecidableEq, Repr

/-- Why the machine stops. The block has no traps (spec/60_exceptions.md, before R200), so there is one
reason, and no run reaches it. -/
inductive Fault
  /-- Raised by the answering of a line request, or by the timer's report, when a request is outstanding
  at a position that issues none. Only states no run reaches have that (log 16). Safe. -/
  | stuck
  deriving DecidableEq, Repr

/-- Why a step has no meaning. -/
inductive Refusal
  /-- An instruction without a meaning yet; raised by no arm of `exec`. Safe. -/
  | notModelled (mnemonic : String)
  /-- A host access of a width other than one byte, raised by the step that meets it (R62). Safe: R62
  asks a model to refuse it. -/
  | accessWidth (n : Nat)
  /-- A host access outside the window, raised by the step that meets it (R62). Safe: R62 asks a model to
  refuse it. -/
  | accessOutsideWindow (off : Nat)
  deriving DecidableEq, Repr

/-- STATUS after reset: 0x00 (R241). -/
def Status.reset : Status :=
  { busy := false, done := false, err := false, pres := false, romv := false, tempv := false,
    cmderr := false, lcfg := .normal }

/-- The command's own state after power-on. The spec leaves it unspecified; all zero here (DESIGN
CHOICE, log 6, log 15; no host access shows it before an acceptance has written it). -/
def Work.reset : Work :=
  { op := 0, d := 0, sPres := false, sEcho := 0, sRx := 0, sRxv := false,
    sRom := Vector.replicate 8 0, sSp := Vector.replicate 9 0, sCode := .ok, e := 0, b := 0, acc := 0 }

/-- The machine right after block reset (R241), with an empty script (log 19). -/
def State.reset : State :=
  { status := Status.reset, result := 0, data := 0, rxdata := 0, echo := 0, crc := 0,
    rom := Vector.replicate 8 0, sp := Vector.replicate 9 0, seq := .idle, work := Work.reset,
    pend := .none, timer := .stopped, rdata := none, inputs := [], draws := 0 }

end Sys2Proof.Machine
end

