-- ==== Sys2Proof/Machine/Flags.lean ====
section
/-! DEFINITION. The flags and the checks that decide them: STATUS as one byte (spec/10_state.md R23), the
numeric result codes (spec/60_exceptions.md R200), presence (spec/30_encoding.md R96), the configuration
check and the absolute-zero check (spec/43_temperature.md R181, R184). -/

namespace Sys2Proof.Machine

/-- LCFG as a bit: 0 = NORMAL, 1 = RESET (R31). -/
def lcfgBit : LineCfg → Bool
  | .normal => false
  | .reset => true

/-- STATUS as the host reads it: bit 0 BUSY up to bit 7 LCFG (R23). -/
def statusByte (s : Status) : Byte :=
  BitVec.ofBool (lcfgBit s.lcfg) ++ BitVec.ofBool s.cmderr ++ BitVec.ofBool s.tempv ++
    BitVec.ofBool s.romv ++ BitVec.ofBool s.pres ++ BitVec.ofBool s.err ++ BitVec.ofBool s.done ++
    BitVec.ofBool s.busy

/-- The numeric result codes (R200). 0x09 to 0xFF are never written. -/
def codeByte : ResultCode → Byte
  | .ok => 0x00#8
  | .nodevReset => 0x01#8
  | .nodevWrite => 0x02#8
  | .crcErr => 0x03#8
  | .unexpDev => 0x04#8
  | .timeout => 0x05#8
  | .ioErr => 0x06#8
  | .rangeErr => 0x07#8
  | .illCmd => 0x08#8

/-- STATUS.ERR at a commit: `code != 0x00` (R26, R45). -/
def errOf (c : ResultCode) : Bool := codeByte c != 0x00#8

/-- `presence(e)` for the echo of a reset frame (R96). -/
def presence (e : Byte) : Bool := e != 0x00#8 && e != 0xF0#8

/-- `cfg_ok(c) = ((c & 0x9F) = 0x1F)` (R181; 90_conflicts.md C2). -/
def cfgOk (c : Byte) : Bool := c &&& 0x9F#8 == 0x1F#8

/-- `above_abs_zero(t) = (t >= -4370)` on the signed 16-bit reading (R184). -/
def aboveAbsZero (t : BitVec 16) : Bool := decide (-4370 ≤ t.toInt)

end Sys2Proof.Machine
end

