-- ==== Sys2Proof/Machine/Operands.lean ====
section
/-! DEFINITION. The operand forms: the line frames and what is read back from them (spec/30_encoding.md
R95, R97, spec/40_bus_driver.md R127), the command bytes of the block's own sequences (R98), the byte each
call of writeByte sends, the opcode each position belongs to (R91), the settings behind a line
configuration (spec/20_memory.md R69), and the host's views of the buffers (R40, R41). -/

namespace Sys2Proof.Machine

/-- The reset frame (R95). -/
def resetFrame : Byte := 0xF0#8

/-- The slot frame of a bit: 0xFF for 1, 0x00 for 0 (R95). -/
def slotFrame (bit : Bool) : Byte := if bit then 0xFF#8 else 0x00#8

/-- The bit read back from the echo of a slot frame: `r[0]` (R97). -/
def readBit (r : Byte) : Bool := r.getLsbD 0

/-- `zext_8` of a readback bit (R132). -/
def bitByte (bit : Bool) : Byte := if bit then 0x01#8 else 0x00#8

/-- `acc <- (acc >> 1) | (zext_8(r[0]) << 7)` (R127; 90_conflicts.md C1). -/
def accumulate (acc r : Byte) : Byte := (acc >>> 1) ||| (bitByte (readBit r) <<< 7)

/-- The readback of writeByte from the eight echoes in slot order (R127). -/
def readback (echoes : List Byte) : Byte := echoes.foldl accumulate 0x00#8

/-- The bit of `d` that WBIT sends (R92, R132). -/
def wbitOperand (d : Byte) : Bool := d.getLsbD 0

/-- The command byte that a call of owWrite in the block's own sequences sends (R98). -/
def ByteCall.command : ByteCall → Option Byte
  | .romCommand => some 0x33#8
  | .tempSkip1 => some 0xCC#8
  | .tempConvert => some 0x44#8
  | .tempSkip2 => some 0xCC#8
  | .tempReadSp => some 0xBE#8
  | .xbyte | .write | .read | .romByte _ | .tempByte _ => none

/-- The byte a call of writeByte sends: `d` for XBYTE and WRITE (R133, R134), the command byte (R98), and
0xFF for every owRead (R129). -/
def ByteCall.operand (c : ByteCall) (d : Byte) : Byte :=
  match c with
  | .xbyte => d
  | .write => d
  | .read => 0xFF#8
  | .romCommand => 0x33#8
  | .romByte _ => 0xFF#8
  | .tempSkip1 => 0xCC#8
  | .tempConvert => 0x44#8
  | .tempSkip2 => 0xCC#8
  | .tempReadSp => 0xBE#8
  | .tempByte _ => 0xFF#8

/-- The opcode of the command a bus reset belongs to (R91). -/
def ResetCall.opcode : ResetCall → Nibble
  | .cmd => 0x1#4
  | .rom => 0x6#4
  | .temp1 | .temp2 => 0x7#4

/-- The opcode of the command a call of writeByte belongs to (R91). -/
def ByteCall.opcode : ByteCall → Nibble
  | .xbyte => 0x3#4
  | .write => 0x4#4
  | .read => 0x5#4
  | .romCommand | .romByte _ => 0x6#4
  | .tempSkip1 | .tempConvert | .tempSkip2 | .tempReadSp | .tempByte _ => 0x7#4

/-- The opcode of the command a position belongs to (R91); none for IDLE and for the commit, which every
command shares. -/
def Seq.opcode : Seq → Option Nibble
  | .idle | .commit => none
  | .cfgReset c | .txPulse c | .rxEcho c | .cfgNormal c _ => some c.opcode
  | .txBit | .rxBit => some 0x2#4
  | .txByte c _ | .rxByte c _ => some c.opcode
  | .wait => some 0x7#4

/-- The frame a position sends with LineTx (R125 to R127). -/
def Seq.frame (w : Work) : Seq → Option Byte
  | .txPulse _ => some resetFrame
  | .txBit => some (slotFrame (wbitOperand w.d))
  | .txByte _ i => some (slotFrame (w.b.getLsbD i.val))
  | .idle | .cfgReset _ | .rxEcho _ | .cfgNormal _ _ | .rxBit | .rxByte _ _ | .wait | .commit => none

/-- Whether a position waits for LineRx (R125 to R127). -/
def Seq.receives : Seq → Bool
  | .rxEcho _ | .rxBit | .rxByte _ _ => true
  | .idle | .cfgReset _ | .txPulse _ | .cfgNormal _ _ | .txBit | .txByte _ _ | .wait | .commit => false

/-- Whether a position stands between busReset's `LineCfg(RESET)` and its `LineCfg(NORMAL)` (R125). -/
def Seq.inReset : Seq → Bool
  | .txPulse _ | .rxEcho _ | .cfgNormal _ _ => true
  | .idle | .cfgReset _ | .txBit | .rxBit | .txByte _ _ | .rxByte _ _ | .wait | .commit => false

/-- What the transport applies to every frame under a line configuration (R69). -/
structure LineSettings where
  baud : Nat
  dataBits : Nat
  parity : Bool
  stopBits : Nat
  handshake : Bool
  rts : Bool
  deriving DecidableEq, Repr

/-- The settings of the two line configurations (R8, R69). -/
def lineSettings : LineCfg → LineSettings
  | .normal => { baud := 115200, dataBits := 6, parity := false, stopBits := 1, handshake := false, rts := false }
  | .reset => { baud := 9600, dataBits := 8, parity := false, stopBits := 1, handshake := false, rts := false }

/-- What the line port presents to the transport (R31, R69). -/
def linePort (s : State) : LineSettings := lineSettings s.status.lcfg

/-- T_CONV in milliseconds: the least the conversion wait lasts (R8, R123). -/
def tConvMs : Nat := 800

/-- The 64-bit serial-number view: ROM0 in bits 63:56, ROM7 in bits 7:0 (R40). -/
def serialOf (rom : Vector Byte 8) : BitVec 64 :=
  rom[0] ++ rom[1] ++ rom[2] ++ rom[3] ++ rom[4] ++ rom[5] ++ rom[6] ++ rom[7]

/-- The raw reading `sext_16(sp[1]:sp[0])` (R41, R183); its signed value is `toInt`. -/
def trawOf (sp : Vector Byte 9) : BitVec 16 := sp[1] ++ sp[0]

end Sys2Proof.Machine
end

