-- ==== Sys2Proof/Machine/Ops.lean ====
section
/-! DEFINITION. The shared operations: reading and writing the register window (spec/20_memory.md R61),
the micro-operations (spec/40_bus_driver.md R120 to R123), acceptance and commit (spec/10_state.md R45,
R46), the failure of a command, which is what this block has in place of an exception, and its `finally`
(spec/60_exceptions.md R201), and block reset (spec/70_reset_and_hazards.md R240, R241). -/

namespace Sys2Proof.Machine

/-! ## The register window -/

/-- `MemRead(off, 1)`: the byte the register at `off` reads as (R19 to R39, R61). The only reader of the
window. -/
def readReg (off : Offset) (s : State) : Byte :=
  if off = 0x01#5 then statusByte s.status
  else if off = 0x02#5 then s.result
  else if off = 0x03#5 then s.data
  else if off = 0x04#5 then s.rxdata
  else if off = 0x05#5 then s.echo
  else if off = 0x06#5 then s.crc
  else if h : 8 ≤ off.toNat ∧ off.toNat < 16 then s.rom[off.toNat - 8]
  else if h : 16 ≤ off.toNat ∧ off.toNat < 25 then s.sp[off.toNat - 16]
  else 0x00#8

/-- A host read completes: the byte goes to the host and nothing in the block changes (R61, R64). -/
def hostRead (off : Offset) (s : State) : State := { s with rdata := some (readReg off s) }

/-- A host write to CRC (R155). -/
def writeCrc (v : Byte) (s : State) : State := { s with crc := v }

/-- A host write of a register the opcode table has no row for: DATA stores the byte (R33); a read-only or
reserved offset has no effect (R19, R20). -/
def plainWrite (off : Offset) (v : Byte) (s : State) : State :=
  if off = 0x03#5 then { s with data := v } else s

/-- A host access whose code is no row of the opcode table (R61). The frames and command bytes of the
sequencer are always rows, so the last case is never met. -/
def plainAccess (c : Code) (s : State) : State :=
  match c with
  | .write off v => plainWrite off v s
  | .read off => hostRead off s
  | .frame _ | .wire _ => s

/-- What a host access is the code of; a width other than one byte, or an offset outside the window, is no
access to the block (R62). -/
def accessCode (a : Access) : Except Refusal Code :=
  match a with
  | .write off bytes =>
    if off < 32 then
      match bytes with
      | [v] => .ok (.write (BitVec.ofNat 5 off) v)
      | _ => .error (.accessWidth bytes.length)
    else .error (.accessOutsideWindow off)
  | .read off n =>
    if off < 32 then
      if n = 1 then .ok (.read (BitVec.ofNat 5 off)) else .error (.accessWidth n)
    else .error (.accessOutsideWindow off)

/-! ## Micro-operations -/

/-- The sequencer moves to a position. -/
def goto (q : Seq) (s : State) : State := { s with seq := q }

/-- `LineCfg(m)` (R120). -/
def lineCfg (m : LineCfg) (s : State) : State := { s with status.lcfg := m }

/-- `LineTx(b)`: the request is issued and the sequencer waits (R121). -/
def lineTx (b : Byte) (s : State) : State := { s with pend := .tx b }

/-- `LineRx()`: the request is issued and the sequencer waits (R122). -/
def lineRx (s : State) : State := { s with pend := .rx }

/-- `Wait(T_CONV)`: the conversion timer starts and the sequencer waits (R123, R211). -/
def startWait (s : State) : State := { s with pend := .wait, timer := .running }

/-- The outstanding micro-operation is over: `pend <- none`, "in every case" (R121, R122, R123). -/
def clearPend (s : State) : State := { s with pend := .none }

/-! ## The end of a command -/

/-- The pseudocode reaches its end with a code; the commit is the next step (log 4). -/
def finish (c : ResultCode) (s : State) : State := { s with seq := .commit, work.sCode := c }

/-- `raise Fail(code)`: the running command ends at once; inside busReset's try its finally runs first
(R201, R124, R125). Nothing is saved but the code (R202, R205). -/
def raiseFail (c : ResultCode) (s : State) : State :=
  match s.seq with
  | .txPulse r => { s with seq := .cfgNormal r true, work.sCode := c }
  | .rxEcho r => { s with seq := .cfgNormal r true, work.sCode := c }
  | _ => finish c s

/-- `op in {WBIT, XBYTE, WRITE, READ}` (R45). -/
def isExchange (op : Nibble) : Bool := op == 0x2#4 || op == 0x3#4 || op == 0x4#4 || op == 0x5#4

/-- `op = READROM and code = 0x00` (R45). -/
def commitsRom (op : Nibble) (c : ResultCode) : Bool := op == 0x6#4 && !errOf c

/-- `op = READTEMP and code = 0x00` (R45). -/
def commitsTemp (op : Nibble) (c : ResultCode) : Bool := op == 0x7#4 && !errOf c

/-- `commit(code)`: the one point at which a command's results become visible, and the way back from a
failure too (R45, R206). -/
def commit (c : ResultCode) (s : State) : State :=
  { s with
    result := codeByte c
    status :=
      { s.status with
        err := errOf c
        pres := s.work.sPres
        romv := commitsRom s.work.op c || s.status.romv
        tempv := commitsTemp s.work.op c || s.status.tempv
        done := true
        busy := false }
    echo := s.work.sEcho
    rxdata := if isExchange s.work.op && s.work.sRxv then s.work.sRx else s.rxdata
    rom := if commitsRom s.work.op c then s.work.sRom else s.rom
    sp := if commitsTemp s.work.op c then s.work.sSp else s.sp
    seq := .idle }

/-! ## Acceptance -/

/-- What an accepted CMD write does whatever the command: the flags it clears and what it latches (R46). -/
def latch (opc : Nibble) (s : State) : State :=
  { s with
    status := { s.status with cmderr := false, done := false, err := false }
    work :=
      { s.work with
        op := opc, d := s.data, sPres := s.status.pres, sEcho := s.echo, sRxv := false } }

/-- A CMD write: rejected while BUSY = 1, else accepted, and `body` is what R46 says of the opcode
(R30, R46). -/
def accept (opc : Nibble) (body : State → State) (s : State) : Host.Outcome State Fault Refusal :=
  .next (if s.status.busy then { s with status.cmderr := true } else body (latch opc s))

/-- `STATUS.BUSY <- 1; seq <- start of the command's pseudocode` (R46). -/
def start (q : Seq) (s : State) : State := { s with seq := q, status.busy := true }

/-- A CMD byte that names no command: `commit(0x08)` inside the acceptance step (R46, R93). -/
def acceptIllegal (v : Byte) (s : State) : Host.Outcome State Fault Refusal :=
  accept (v.setWidth 4) (commit .illCmd) s

/-! ## writeByte -/

/-- The start of a call of writeByte: the byte to send, and the first slot's LineTx as the position
(R127). A command byte of the block's own sequences is loaded by its OW instruction instead. -/
def enterByte (c : ByteCall) (b : Byte) (s : State) : State :=
  { s with seq := .txByte c 0, work.b := b }

/-- `owWrite(b)` begins: writeByte's byte is `b`, and the frame of slot 0 is sent (R127, R128). -/
def beginOwWrite (b : Byte) (s : State) : State :=
  lineTx (slotFrame (b.getLsbD 0)) { s with work.b := b }

/-- owWrite's comparison of the readback with the byte written (R128): go on, or `Fail(NODEV_WRITE)`. -/
def verify (r : Byte) (go : State → State) (s : State) : State :=
  if r = s.work.b then go s else raiseFail .nodevWrite s

/-! ## Block reset -/

/-- The command's own state after a block reset: unspecified (R241), so free values, the draws from `n`
on (log 7). -/
def unspecifiedWork (n : Nat) : Work :=
  { op := (Config.unspecifiedByte n).setWidth 4
    d := Config.unspecifiedByte (n + 1)
    sPres := (Config.unspecifiedByte (n + 2)).getLsbD 0
    sEcho := Config.unspecifiedByte (n + 3)
    sRx := Config.unspecifiedByte (n + 4)
    sRxv := (Config.unspecifiedByte (n + 5)).getLsbD 0
    sRom := Vector.ofFn fun k => Config.unspecifiedByte (n + 6 + k.val)
    sSp := Vector.ofFn fun k => Config.unspecifiedByte (n + 14 + k.val)
    sCode := Config.unspecifiedCode (n + 23)
    e := Config.unspecifiedByte (n + 24)
    b := Config.unspecifiedByte (n + 25)
    acc := Config.unspecifiedByte (n + 26) }

/-- Block reset, at any time: the running command is abandoned and every register takes its reset value
(R240, R241). The script and the byte last returned to the host are not the block's. -/
def blockReset (s : State) : State :=
  { State.reset with
    work := unspecifiedWork s.draws, rdata := s.rdata, inputs := s.inputs, draws := s.draws + 27 }

end Sys2Proof.Machine
end

