-- ==== Sys2Proof/Machine/BusDriver.lean ====
section
/-! DEFINITION. The commands NOP, RESET, WBIT, XBYTE, WRITE and READ, and the line frames of the bus driver
(spec/40_bus_driver.md R130 to R135, spec/30_encoding.md R95). The meaning of a CMD byte is the host's
write of it, one step (spec/10_state.md R46); the pseudocode the command starts is run by the sequencer's
steps (Machine/Sequencer.lean). -/

namespace Sys2Proof.Machine

/-- NOP: `commit(OK)` inside the acceptance step (R130). -/
def execNop (s : State) : Host.Outcome State Fault Refusal := accept 0x0#4 (commit .ok) s

/-- RESET: starts `busReset()` (R131). -/
def execReset (s : State) : Host.Outcome State Fault Refusal :=
  accept 0x1#4 (start (.cfgReset .cmd)) s

/-- WBIT: starts `slot(d[0])` (R132). -/
def execWbit (s : State) : Host.Outcome State Fault Refusal := accept 0x2#4 (start .txBit) s

/-- XBYTE: starts `writeByte(d)` (R133). -/
def execXbyte (s : State) : Host.Outcome State Fault Refusal :=
  accept 0x3#4 (fun t => start (.txByte .xbyte 0) (enterByte .xbyte t.work.d t)) s

/-- WRITE: starts `writeByte(d)` of the verified write (R134). -/
def execWrite (s : State) : Host.Outcome State Fault Refusal :=
  accept 0x4#4 (fun t => start (.txByte .write 0) (enterByte .write t.work.d t)) s

/-- READ: starts `owRead() = writeByte(0xFF)` (R129, R135). -/
def execRead (s : State) : Host.Outcome State Fault Refusal :=
  accept 0x5#4 (fun t => start (.txByte .read 0) (enterByte .read 0xFF#8 t)) s

/-- BUS.RESETPULSE: `LineTx(0xF0)` (R121, R125). -/
def execBusResetpulse (s : State) : Host.Outcome State Fault Refusal := .next (lineTx resetFrame s)

/-- BUS.SLOT1: `LineTx(0xFF)` (R121, R126, R127). -/
def execBusSlot1 (s : State) : Host.Outcome State Fault Refusal := .next (lineTx (slotFrame true) s)

/-- BUS.SLOT0: `LineTx(0x00)` (R121, R126, R127). -/
def execBusSlot0 (s : State) : Host.Outcome State Fault Refusal := .next (lineTx (slotFrame false) s)

end Sys2Proof.Machine
end

