-- ==== Sys2Proof/Machine/Crc8.lean ====
section
/-! DEFINITION. The CRC-8 checker (spec/41_crc8.md): the function, and the three operations of the host on
the CRC unit. -/

namespace Sys2Proof.Machine

/-- One iteration of R150: the test before the logical shift, the XOR after it. -/
def crc8Shift (a : Byte) : Byte := if a.getLsbD 0 then (a >>> 1) ^^^ 0x8C#8 else a >>> 1

/-- `n` iterations of R150. -/
def crc8Iter : Nat → Byte → Byte
  | 0, a => a
  | n + 1, a => crc8Iter n (crc8Shift a)

/-- `crc8_byte(c, b)` (R150). -/
def crc8Byte (c b : Byte) : Byte := crc8Iter 8 (c ^^^ b)

/-- `crc8(bytes)`: zero initial value, no final XOR (R151). -/
def crc8 (bytes : List Byte) : Byte := bytes.foldl crc8Byte 0x00#8

/-- READROM's check `crc8(rom[0..7)) = rom[7]` (R99, R153). -/
def romCrcOk (rom : Vector Byte 8) : Bool := crc8 (rom.toList.take 7) == rom[7]

/-- READTEMP's check `crc8(sp[0..8)) = sp[8]` (R153, R182). -/
def spCrcOk (sp : Vector Byte 9) : Bool := crc8 (sp.toList.take 8) == sp[8]

/-- CRCIN: a host write of `v` to offset 0x07, `CRC <- crc8_byte(CRC, v)` (R154). -/
def execCrcin (v : Byte) (s : State) : Host.Outcome State Fault Refusal :=
  .next (writeCrc (crc8Byte s.crc v) s)

/-- CRCLD: a host write of `v` to offset 0x06, `CRC <- v` (R155). -/
def execCrcld (v : Byte) (s : State) : Host.Outcome State Fault Refusal := .next (writeCrc v s)

/-- CRCRD: a host read of offset 0x06 (R156). -/
def execCrcrd (s : State) : Host.Outcome State Fault Refusal := .next (hostRead 0x06#5 s)

end Sys2Proof.Machine
end

