-- ==== Sys2Proof/Machine/Illegal.lean ====
section
/-! DEFINITION. The illegal CMD bytes, every v >= 0x08 (spec/30_encoding.md R93): the acceptance step
commits RESULT = ILLCMD and nothing goes out on the line. -/

namespace Sys2Proof.Machine

/-- ILLCMD.OPC (R93). -/
def execIllcmdOpc (v : Byte) (s : State) : Host.Outcome State Fault Refusal := acceptIllegal v s

/-- ILLCMD.RSV4 (R93). -/
def execIllcmdRsv4 (v : Byte) (s : State) : Host.Outcome State Fault Refusal := acceptIllegal v s

/-- ILLCMD.RSV5 (R93). -/
def execIllcmdRsv5 (v : Byte) (s : State) : Host.Outcome State Fault Refusal := acceptIllegal v s

/-- ILLCMD.RSV6 (R93). -/
def execIllcmdRsv6 (v : Byte) (s : State) : Host.Outcome State Fault Refusal := acceptIllegal v s

/-- ILLCMD.RSV7 (R93). -/
def execIllcmdRsv7 (v : Byte) (s : State) : Host.Outcome State Fault Refusal := acceptIllegal v s

end Sys2Proof.Machine
end

