-- ==== Sys2Proof/Machine/RomReader.lean ====
section
/-! DEFINITION. READROM and its bus command byte (spec/42_rom_reader.md R170). -/

namespace Sys2Proof.Machine

/-- READROM: ROMV is cleared and `busReset()` starts (R46, R170). -/
def execReadrom (s : State) : Host.Outcome State Fault Refusal :=
  accept 0x6#4 (fun t => start (.cfgReset .rom) { t with status.romv := false }) s

/-- OW.READROM: `owWrite(0x33)` begins (R98, R170). -/
def execOwReadrom (s : State) : Host.Outcome State Fault Refusal := .next (beginOwWrite 0x33#8 s)

/-- READROM's check after the eight reads (R170, R153). -/
def romCheck (s : State) : State :=
  if romCrcOk s.work.sRom then finish .ok s else raiseFail .crcErr s

/-- `s_rom[k] <- owRead()` has the byte `r`; the next read, or the check (R170). -/
def romByteDone (k : Fin 8) (r : Byte) (s : State) : State :=
  let t := { s with work.sRom := s.work.sRom.set k r }
  if k = 7 then romCheck t else enterByte (.romByte (k + 1)) 0xFF#8 t

end Sys2Proof.Machine
end

