-- ==== Sys2Proof/Machine/Temperature.lean ====
section
/-! DEFINITION. READTEMP and its bus command bytes (spec/43_temperature.md R180 to R184). -/

namespace Sys2Proof.Machine

/-- READTEMP: TEMPV is cleared and `busReset()` starts (R46, R180). -/
def execReadtemp (s : State) : Host.Outcome State Fault Refusal :=
  accept 0x7#4 (fun t => start (.cfgReset .temp1) { t with status.tempv := false }) s

/-- OW.SKIPROM: `owWrite(0xCC)` begins (R98, R180 steps 2 and 6). -/
def execOwSkiprom (s : State) : Host.Outcome State Fault Refusal := .next (beginOwWrite 0xCC#8 s)

/-- OW.CONVERT: `owWrite(0x44)` begins (R98, R180 step 3). -/
def execOwConvert (s : State) : Host.Outcome State Fault Refusal := .next (beginOwWrite 0x44#8 s)

/-- OW.READSP: `owWrite(0xBE)` begins (R98, R180 step 7). -/
def execOwReadsp (s : State) : Host.Outcome State Fault Refusal := .next (beginOwWrite 0xBE#8 s)

/-- READTEMP's steps 9 to 12 in order: configuration byte, CRC, absolute zero (R180 to R184, R203). -/
def tempCheck (s : State) : State :=
  if !cfgOk s.work.sSp[4] then raiseFail .unexpDev s
  else if !spCrcOk s.work.sSp then raiseFail .crcErr s
  else if !aboveAbsZero (trawOf s.work.sSp) then raiseFail .rangeErr s
  else finish .ok s

/-- `s_sp[k] <- owRead()` has the byte `r`; the next read, or the checks (R180 step 8). -/
def tempByteDone (k : Fin 9) (r : Byte) (s : State) : State :=
  let t := { s with work.sSp := s.work.sSp.set k r }
  if k = 8 then tempCheck t else enterByte (.tempByte (k + 1)) 0xFF#8 t

end Sys2Proof.Machine
end

