-- ==== Sys2Proof/Machine/Dispatch.lean ====
section
/-! DEFINITION. One arm per constructor of `Instr`, each a direct call of its meaning. -/

namespace Sys2Proof.Machine

def exec (i : Instr) (s : State) : Host.Outcome State Fault Refusal :=
  match i with
  | .nop => Sys2Proof.Machine.execNop s
  | .reset => Sys2Proof.Machine.execReset s
  | .wbit => Sys2Proof.Machine.execWbit s
  | .xbyte => Sys2Proof.Machine.execXbyte s
  | .write => Sys2Proof.Machine.execWrite s
  | .read => Sys2Proof.Machine.execRead s
  | .readrom => Sys2Proof.Machine.execReadrom s
  | .readtemp => Sys2Proof.Machine.execReadtemp s
  | .illcmdOpc v => Sys2Proof.Machine.execIllcmdOpc v s
  | .illcmdRsv4 v => Sys2Proof.Machine.execIllcmdRsv4 v s
  | .illcmdRsv5 v => Sys2Proof.Machine.execIllcmdRsv5 v s
  | .illcmdRsv6 v => Sys2Proof.Machine.execIllcmdRsv6 v s
  | .illcmdRsv7 v => Sys2Proof.Machine.execIllcmdRsv7 v s
  | .crcin v => Sys2Proof.Machine.execCrcin v s
  | .crcld v => Sys2Proof.Machine.execCrcld v s
  | .crcrd => Sys2Proof.Machine.execCrcrd s
  | .busResetpulse => Sys2Proof.Machine.execBusResetpulse s
  | .busSlot1 => Sys2Proof.Machine.execBusSlot1 s
  | .busSlot0 => Sys2Proof.Machine.execBusSlot0 s
  | .owReadrom => Sys2Proof.Machine.execOwReadrom s
  | .owSkiprom => Sys2Proof.Machine.execOwSkiprom s
  | .owConvert => Sys2Proof.Machine.execOwConvert s
  | .owReadsp => Sys2Proof.Machine.execOwReadsp s

end Sys2Proof.Machine
end

