-- ==== Sys2Proof/Machine/Sequencer.lean ====
section
/-! DEFINITION. The sequencer: what happens between micro-operations (spec/40_bus_driver.md R120 to R129),
the answers of the line environment and of the conversion timer, and the steps that no row of the opcode
table names. -/

namespace Sys2Proof.Machine

/-- The end of a bus reset that saw presence: the command ends, or its first bus command byte follows
(R131, R170, R180). -/
def afterReset (c : ResetCall) (s : State) : State :=
  match c with
  | .cmd => finish .ok s
  | .rom => goto (.txByte .romCommand 0) s
  | .temp1 => goto (.txByte .tempSkip1 0) s
  | .temp2 => goto (.txByte .tempSkip2 0) s

/-- busReset after its finally, on the normal exit: the echo and presence are staged, and a missing
presence is `Fail(NODEV_RESET)` (R125). -/
def resetDone (c : ResetCall) (s : State) : State :=
  let t := { s with work := { s.work with sEcho := s.work.e, sPres := presence s.work.e } }
  if presence s.work.e then afterReset c t else raiseFail .nodevReset t

/-- busReset's `LineCfg(RESET)`, with the `s_pres <- 0` before it (R125, log 5). -/
def resetBegin (c : ResetCall) (s : State) : State :=
  goto (.txPulse c) (lineCfg .reset { s with work.sPres := false })

/-- busReset's finally, `LineCfg(NORMAL)`: after a raise the commit follows, else the rest of busReset runs
(R124, R125). -/
def resetFinally (c : ResetCall) (raised : Bool) (s : State) : State :=
  let t := lineCfg .normal s
  if raised then goto .commit t else resetDone c t

/-- A call of writeByte has returned the readback `r` (R128, R129, R133 to R135, R170, R180). -/
def byteDone (c : ByteCall) (r : Byte) (s : State) : State :=
  match c with
  | .xbyte => finish .ok { s with work := { s.work with sRx := r, sRxv := true } }
  | .write =>
    let t := { s with work := { s.work with sRx := r, sRxv := true } }
    if r = s.work.d then finish .ok t else raiseFail .nodevWrite t
  | .read => finish .ok { s with work := { s.work with sRx := r, sRxv := true } }
  | .romCommand => verify r (enterByte (.romByte 0) 0xFF#8) s
  | .romByte k => romByteDone k r s
  | .tempSkip1 => verify r (goto (.txByte .tempConvert 0)) s
  | .tempConvert => verify r (goto .wait) s
  | .tempSkip2 => verify r (goto (.txByte .tempReadSp 0)) s
  | .tempReadSp => verify r (enterByte (.tempByte 0) 0xFF#8) s
  | .tempByte k => tempByteDone k r s

/-- The transport has taken the frame of a position: the next LineTx of writeByte, or the first LineRx
after it (R125 to R127). A position that sends nothing has no outstanding frame (log 16). -/
def txDone (s : State) : State :=
  match s.seq with
  | .txPulse c => goto (.rxEcho c) s
  | .txBit => goto .rxBit s
  | .txByte c i =>
    if i = 7 then { s with seq := .rxByte c 0, work.acc := 0x00#8 } else goto (.txByte c (i + 1)) s
  | _ => s

/-- A byte has been received at a position: the reset echo, a bit, or one more bit of a byte (R125 to
R127). A position that receives nothing has no outstanding LineRx (log 16). -/
def rxDone (v : Byte) (s : State) : State :=
  match s.seq with
  | .rxEcho c => { s with seq := .cfgNormal c false, work.e := v }
  | .rxBit => finish .ok { s with work := { s.work with sRx := bitByte (readBit v), sRxv := true } }
  | .rxByte c i =>
    let acc := accumulate s.work.acc v
    if i = 7 then byteDone c acc { s with work.acc := acc }
    else { s with seq := .rxByte c (i + 1), work.acc := acc }
  | _ => s

/-- The environment answers the outstanding `Tx` (R121). -/
def answerTx (a : TxAnswer) (s : State) : Host.Outcome State Fault Refusal :=
  if (s.seq.frame s.work).isSome then
    match a with
    | .ok => .next (txDone (clearPend s))
    | .timeout => .next (raiseFail .timeout (clearPend s))
    | .ioError => .next (raiseFail .ioErr (clearPend s))
  else .fault .stuck

/-- The environment answers the outstanding `Rx` (R122). -/
def answerRx (a : RxAnswer) (s : State) : Host.Outcome State Fault Refusal :=
  if s.seq.receives then
    match a with
    | .byte v => .next (rxDone v (clearPend s))
    | .timeout => .next (raiseFail .timeout (clearPend s))
    | .ioError => .next (raiseFail .ioErr (clearPend s))
  else .fault .stuck

/-- The conversion timer reports that at least T_CONV has passed: the Wait is over, the timer stops, and
READTEMP goes on with its second bus reset (R123, R180 step 5). -/
def timerReport (s : State) : Host.Outcome State Fault Refusal :=
  if s.seq = .wait then .next (goto (.cfgReset .temp2) { clearPend s with timer := .stopped })
  else .fault .stuck

/-- The next free draw has been used (log 2). -/
def drawn (s : State) : State := { s with draws := s.draws + 1 }

/-- A step of the sequencer that is no row of the opcode table, with nothing outstanding: the
micro-operations but LineTx, and the commit. An idle sequencer does nothing (R242). The positions that
send a frame are never met here: the frame is the code the machine runs (Machine/Fetch.lean). -/
def sequencerStep (s : State) : State :=
  match s.seq with
  | .idle => s
  | .cfgReset c => resetBegin c s
  | .rxEcho _ => lineRx s
  | .cfgNormal c raised => resetFinally c raised s
  | .rxBit => lineRx s
  | .rxByte _ _ => lineRx s
  | .wait => startWait s
  | .commit => commit s.work.sCode s
  | .txPulse _ => s
  | .txBit => s
  | .txByte _ _ => s

/-- A tick: the agent whose turn it is moves. An outstanding request is answered by a free draw of `LINE`,
an outstanding Wait by the timer (R71, R123), else the sequencer moves. -/
def tick (s : State) : Host.Outcome State Fault Refusal :=
  match s.pend with
  | .tx _ => answerTx (Config.lineTx s.draws) (drawn s)
  | .rx => answerRx (Config.lineRx s.draws) (drawn s)
  | .wait => timerReport s
  | .none => .next (sequencerStep s)

/-- The host's `poll`: one read of STATUS; while it returns BUSY = 1 the other agents move and the host
reads again (R102). -/
def pollStep (rest : List Input) (s : State) : State :=
  { hostRead 0x01#5 s with inputs := if s.status.busy then .tick :: .poll :: rest else rest }

/-- An event of the script that is no instruction. An answer that fits no outstanding request is ignored
(R240, log 13), and the timer ends no Wait before T_CONV has passed (R123). -/
def eventStep (i : Input) (rest : List Input) (s : State) : Host.Outcome State Fault Refusal :=
  match i with
  | .tick => tick s
  | .host a =>
    match accessCode a with
    | .error r => .refused r
    | .ok c => .next (plainAccess c s)
  | .poll => .next (pollStep rest s)
  | .tx a =>
    match s.pend with
    | .tx _ => answerTx a s
    | _ => .next s
  | .rx a =>
    match s.pend with
    | .rx => answerRx a s
    | _ => .next s
  | .timer ms =>
    match s.pend with
    | .wait => if tConvMs ≤ ms then timerReport s else .next s
    | _ => .next s
  | .blockReset => .next (blockReset s)

/-- A step that runs no row of the opcode table: the head of the script, or a tick where the script is
empty, so that a running command always goes on (weak fairness, R71, R123). -/
def agentStep (s : State) : Host.Outcome State Fault Refusal :=
  match s.inputs with
  | [] => tick s
  | i :: rest => eventStep i rest { s with inputs := rest }

end Sys2Proof.Machine
end

