-- ==== Sys2Proof/Machine/Fetch.lean ====
section
/-! DEFINITION. Where the next instruction comes from. The block has no instruction memory
(spec/20_memory.md R60, R77): the code a step runs is the host access at the head of the script, or, when
it is the sequencer's turn and nothing is outstanding, the frame or command byte its position sends. -/

namespace Sys2Proof.Machine

/-- The code the sequencer's position sends: a bus command byte at the start of an owWrite of the block's
own sequences (R98), else the frame of the position (R95). -/
def sequencerCode (s : State) : Option Code :=
  match s.seq with
  | .txByte c 0 =>
    match c.command with
    | some b => some (.wire b)
    | none => (s.seq.frame s.work).map Code.frame
  | _ => (s.seq.frame s.work).map Code.frame

/-- The code the next step runs, if it runs one. -/
def fetch (s : State) : Option Code :=
  match s.inputs with
  | .host a :: _ => (accessCode a).toOption
  | [] => if s.pend = .none then sequencerCode s else none
  | .tick :: _ => if s.pend = .none then sequencerCode s else none
  | .poll :: _ | .tx _ :: _ | .rx _ :: _ | .timer _ :: _ | .blockReset :: _ => none

/-- The script moves on past the entry the step uses. -/
def advance (s : State) : State := { s with inputs := s.inputs.tail }

/-- The sequencer at a position, busy with the command the position belongs to. -/
def placeAt (q : Seq) (s : State) : State :=
  { s with
    inputs := .tick :: s.inputs, pend := .none, seq := q
    status := { s.status with busy := true, lcfg := if q.inReset then .reset else .normal }
    work := { s.work with op := q.opcode.getD s.work.op } }

/-- `s` with a code placed where the next step fetches it: a host access at the head of the script; for a
frame or a command byte, the sequencer at a position that sends it (log 11, log 19). A byte that is no
frame and no command byte of the block has no such position. -/
def placeCode (c : Code) (s : State) : State :=
  match c with
  | .write off v => { s with inputs := .host (.write off.toNat [v]) :: s.inputs }
  | .read off => { s with inputs := .host (.read off.toNat 1) :: s.inputs }
  | .frame b =>
    if b = resetFrame then placeAt (.txPulse .cmd) s
    else placeAt .txBit { s with work.d := b }
  | .wire b =>
    if b = 0x33#8 then placeAt (.txByte .romCommand 0) s
    else if b = 0xCC#8 then placeAt (.txByte .tempSkip1 0) s
    else if b = 0x44#8 then placeAt (.txByte .tempConvert 0) s
    else placeAt (.txByte .tempReadSp 0) s

end Sys2Proof.Machine
end

