-- ==== Sys2Proof/Machine/Step.lean ====
section
/-! DEFINITION. One step of the machine, and how the host places one instruction before it. -/

namespace Sys2Proof.Machine

/-- One step. A code that is a row of the opcode table runs as its instruction; another host access is
performed by R61; where no code is fetched, another agent moves. -/
def step (s : State) : Host.Outcome State Fault Refusal :=
  match fetch s with
  | some c =>
    match decode c with
    | .ok i => exec i (advance s)
    | .error _ => .next (plainAccess c (advance s))
  | none => agentStep s

/-- `s` with the instruction of a table word placed so that the very next step runs it (log 11, log 19). -/
def State.withFetchWord (s : State) (_nbits w : Nat) : State :=
  placeCode (tableCode (BitVec.ofNat 8 w)) s

end Sys2Proof.Machine
end

