-- ==== Sys2Proof/Machine/HostAsm.lean ====
section
/-! DEFINITION. The host assembly of spec/30_encoding.md R102 to R104: what each statement puts into the
script, and the expansions of the command statements and the pseudo-instructions. Host variables are
host state, not the block's (log 21). -/

namespace Sys2Proof.Machine

/-- The register names of R102. -/
inductive Reg
  | cmd | status | result | data | rxdata | echo | crc | crcin
  | rom (k : Fin 8)
  | sp (k : Fin 9)
  deriving DecidableEq, Repr

/-- The offset of a register (R21). -/
def Reg.offset : Reg → Offset
  | .cmd => 0x00#5
  | .status => 0x01#5
  | .result => 0x02#5
  | .data => 0x03#5
  | .rxdata => 0x04#5
  | .echo => 0x05#5
  | .crc => 0x06#5
  | .crcin => 0x07#5
  | .rom k => BitVec.ofNat 5 (0x08 + k.val)
  | .sp k => BitVec.ofNat 5 (0x10 + k.val)

/-- OFF in a statement: a register name, or a number (R102). A number need not be the offset of a register,
nor one inside the window. -/
inductive Off
  | reg (r : Reg)
  | number (n : Nat)
  deriving DecidableEq, Repr

/-- The window offset that OFF stands for (R21, R102). -/
def Off.toNat : Off → Nat
  | .reg r => r.offset.toNat
  | .number n => n

/-- The base statements (R102). -/
inductive Stmt
  /-- `sb OFF, IMM8` with a byte literal. -/
  | sb (off : Off) (v : Byte)
  /-- `lb NAME <- OFF`; the byte arrives in `rdata`. -/
  | lb (off : Off)
  /-- `poll`. -/
  | poll
  /-- `wait MS`: no block access. -/
  | wait (ms : Nat)
  deriving DecidableEq, Repr

/-- What a base statement does to the block: the script entries of the host, `W OFF IMM8` and `R OFF` of the
trace encoding (R102). An access outside the window is issued too, and refused by the step that meets it
(R62, log 14). -/
def Stmt.inputs : Stmt → List Input
  | .sb off v => [.host (.write off.toNat [v])]
  | .lb off => [.host (.read off.toNat 1)]
  | .poll => [.poll]
  | .wait _ => []

/-- The command statements (R103). -/
inductive OwStmt
  | nop | reset
  | wbit (bit : Bool)
  | xbyte (v : Byte)
  | write (v : Byte)
  | read | readrom | readtemp
  deriving DecidableEq, Repr

/-- The expansions of the command statements (R103). -/
def OwStmt.expand : OwStmt → List Stmt
  | .nop => [.sb (.reg .cmd) 0x00#8]
  | .reset => [.sb (.reg .cmd) 0x01#8, .poll]
  | .wbit bit => [.sb (.reg .data) (bitByte bit), .sb (.reg .cmd) 0x02#8, .poll]
  | .xbyte v => [.sb (.reg .data) v, .sb (.reg .cmd) 0x03#8, .poll]
  | .write v => [.sb (.reg .data) v, .sb (.reg .cmd) 0x04#8, .poll]
  | .read => [.sb (.reg .cmd) 0x05#8, .poll]
  | .readrom => [.sb (.reg .cmd) 0x06#8, .poll]
  | .readtemp => [.sb (.reg .cmd) 0x07#8, .poll]

/-- The pseudo-instructions (R104). -/
inductive Pseudo
  | rbit | romcmd | skiprom | convert | readsp | crcClr
  | crcFeed (v : Byte)
  deriving DecidableEq, Repr

/-- The expansions of the pseudo-instructions, down to base statements (R104). -/
def Pseudo.expand : Pseudo → List Stmt
  | .rbit => (OwStmt.wbit true).expand
  | .romcmd => (OwStmt.write 0x33#8).expand
  | .skiprom => (OwStmt.write 0xCC#8).expand
  | .convert => (OwStmt.write 0x44#8).expand
  | .readsp => (OwStmt.write 0xBE#8).expand
  | .crcClr => [.sb (.reg .crc) 0x00#8]
  | .crcFeed v => [.sb (.reg .crcin) v]

/-- The script entries of a host program. -/
def hostProgram (stmts : List Stmt) : List Input := stmts.flatMap Stmt.inputs

end Sys2Proof.Machine
end

