-- ==== Sys2Proof/Safety.lean ====
section
/-! DEFINITION. What holds in every state a run reaches, from the spec's own sentences about the whole
machine, and the scripts the statements about whole commands use. -/

namespace Sys2Proof.Safety

open Sys2Proof.Machine

/-- `n` steps, stopping at the first fault or refusal (`Host.Core.run` at this machine's own types). -/
def run : Nat → State → Host.Outcome State Fault Refusal
  | 0, s => .next s
  | n + 1, s =>
    match step s with
    | .next t => run n t
    | .fault r => .fault r
    | .refused r => .refused r

/-- The outstanding request is one the sequencer's position issues (R42, R48). -/
def pendFits (s : State) : Bool :=
  match s.pend with
  | .none => true
  | .tx b => s.seq.frame s.work == some b
  | .rx => s.seq.receives
  | .wait => s.seq == .wait

/-- The byte of the running writeByte is the one its call names (R98, R129, R133, R134). Before the first
frame of an owWrite of the block's own sequences its command byte is not loaded yet. -/
def byteFits (s : State) : Bool :=
  match s.seq with
  | .txByte c i => (i == 0 && c.command.isSome && s.pend == .none) || s.work.b == c.operand s.work.d
  | .rxByte c _ => s.work.b == c.operand s.work.d
  | _ => true

/-- The machine's invariant. -/
structure Invariant (s : State) : Prop where
  /-- "`seq = IDLE` exactly when BUSY = 0" (R42). -/
  idle : s.seq = .idle ↔ s.status.busy = false
  /-- LCFG is RESET only between busReset's LineCfg(RESET) and its finally (R31, R47). -/
  lcfg : s.status.lcfg = .reset ↔ s.seq.inReset = true
  /-- R48. -/
  pend : pendFits s = true
  /-- The timer runs exactly during a Wait (R211). -/
  timer : s.timer = .running ↔ s.pend = .wait
  /-- The position is one of the accepted command's (R43, R91). -/
  opcode : ∀ o, s.seq.opcode = some o → s.work.op = o
  /-- R98, R129, R133, R134. -/
  byte : byteFits s = true
  /-- A raise inside busReset's try has left its code in `s_code` (R121, R122, R201). -/
  raised : ∀ c, s.seq = .cfgNormal c true → s.work.sCode = .timeout ∨ s.work.sCode = .ioErr
  /-- DONE and ERR are 0 while a command runs (R25, R26). -/
  running : s.status.busy = true → s.status.done = false ∧ s.status.err = false
  /-- ERR is a copy of "the last command failed" (R26). -/
  err : s.status.done = true → (s.status.err = true ↔ s.result ≠ 0x00#8)
  /-- ERR is 1 only after a commit (R26). -/
  errDone : s.status.err = true → s.status.done = true
  /-- Codes 0x09 to 0xFF are never written (R200). -/
  result : s.result.toNat ≤ 8
  /-- ROMV = 1 means that ROM0 to ROM7 passed the CRC check (R28). -/
  romv : s.status.romv = true → romCrcOk s.rom = true
  /-- TEMPV = 1 means that SP0 to SP8 passed the three checks (R29, R180). -/
  tempv : s.status.tempv = true →
    cfgOk s.sp[4] = true ∧ spCrcOk s.sp = true ∧ aboveAbsZero (trawOf s.sp) = true
  /-- ROMV is 0 while READROM runs (R28). -/
  romBusy : s.status.busy = true → s.work.op = 0x6#4 → s.status.romv = false
  /-- TEMPV is 0 while READTEMP runs (R29). -/
  tempBusy : s.status.busy = true → s.work.op = 0x7#4 → s.status.tempv = false
  /-- READROM is about to commit OK only with a ROM that passed (R170). -/
  romCommit : s.seq = .commit → s.work.op = 0x6#4 → s.work.sCode = .ok →
    romCrcOk s.work.sRom = true
  /-- READTEMP is about to commit OK only with a scratchpad that passed (R180). -/
  tempCommit : s.seq = .commit → s.work.op = 0x7#4 → s.work.sCode = .ok →
    cfgOk s.work.sSp[4] = true ∧ spCrcOk s.work.sSp = true ∧
      aboveAbsZero (trawOf s.work.sSp) = true

/-- The script of one busReset whose frame is taken and whose echo is `e`: LineCfg(RESET), Tx issued and
answered, Rx issued and answered, LineCfg(NORMAL) (R125). -/
def resetScript (e : Byte) : List Input :=
  [.tick, .tick, .tx .ok, .tick, .rx (.byte e), .tick]

/-- The script of the eight LineTx of writeByte, each issued and taken (R127). -/
def txScript : List Input := (List.replicate 8 [Input.tick, Input.tx .ok]).flatten

/-- The script of LineRx requests answered with these echoes in order (R127). -/
def rxScript (echoes : List Byte) : List Input :=
  echoes.flatMap fun r => [Input.tick, Input.rx (.byte r)]

/-- The script of one writeByte that receives these echoes (R127). -/
def byteScript (echoes : List Byte) : List Input := txScript ++ rxScript echoes

/-- The script of a sequence of writeByte calls. -/
def bytesScript (bytes : List (List Byte)) : List Input := bytes.flatMap byteScript

/-- A host write of one byte, as an entry of the script. -/
def hostWrite (off : Offset) (v : Byte) : Input := .host (.write off.toNat [v])

/-- A host read of one byte, as an entry of the script. -/
def hostRead1 (off : Offset) : Input := .host (.read off.toNat 1)

/-- The bytes that a sequence of owRead calls returns from their echoes (R127, R129). -/
def bytesOf {n : Nat} (echoes : Vector (Vector Byte 8) n) : Vector Byte n :=
  echoes.map fun v => readback v.toList

/-- The script of a sequence of owRead calls with these echoes (R68). -/
def readsScript {n : Nat} (echoes : Vector (Vector Byte 8) n) : List Input :=
  bytesScript (echoes.toList.map Vector.toList)

/-- READTEMP's result code for a scratchpad, the first failing check in order (R180, R203). -/
def tempResult (sp : Vector Byte 9) : Byte :=
  if sp[4] &&& 0x9F#8 ≠ 0x1F#8 then 0x04#8
  else if crc8 (sp.toList.take 8) ≠ sp[8] then 0x03#8
  else if (sp[1] ++ sp[0]).toInt < -4370 then 0x07#8
  else 0x00#8

/-- READROM's result code for the eight bytes read (R170). -/
def romResult (rom : Vector Byte 8) : Byte :=
  if crc8 (rom.toList.take 7) ≠ rom[7] then 0x03#8 else 0x00#8

/-- An outcome's next state, changed by `f`. -/
def mapNext (f : State → State) :
    Host.Outcome State Fault Refusal → Host.Outcome State Fault Refusal
  | .next t => .next (f t)
  | .fault r => .fault r
  | .refused r => .refused r

/-- The next event is neither a host access nor a block reset: an agent other than the host moves. -/
def AgentsOwn (s : State) : Prop :=
  (∀ a rest, s.inputs ≠ .host a :: rest) ∧ ∀ rest, s.inputs ≠ .blockReset :: rest

end Sys2Proof.Safety
end

