-- ==== Sys2Proof/Certificates/Slice0/Obligations.lean ====
section
/-! DEFINITION. The statements for the provers. Each docstring names the rules of spec/ it formalises; where a
statement rests on a choice of the model it names the log entry. -/

open Sys2Proof Sys2Proof.Machine Sys2Proof.Safety

/-! ## Encoding -/

/-- Codes written out from the spec's tables decode to the instructions they stand for: one or more per
family (R91, R93, R95, R98, and the REGWR and REGRD rows of the opcode table). -/
def Obligations.SpecCodesDecode : Prop :=
  decode (.write 0x00#5 0x00#8) = .ok .nop ∧
  decode (.write 0x00#5 0x02#8) = .ok .wbit ∧
  decode (.write 0x00#5 0x06#8) = .ok .readrom ∧
  decode (.write 0x00#5 0x07#8) = .ok .readtemp ∧
  decode (.write 0x00#5 0x0F#8) = .ok (.illcmdOpc 0x0F#8) ∧
  decode (.write 0x00#5 0x47#8) = .ok (.illcmdRsv6 0x47#8) ∧
  decode (.write 0x07#5 0xA5#8) = .ok (.crcin 0xA5#8) ∧
  decode (.write 0x06#5 0xA5#8) = .ok (.crcld 0xA5#8) ∧
  decode (.read 0x06#5) = .ok .crcrd ∧
  decode (.frame 0xF0#8) = .ok .busResetpulse ∧
  decode (.frame 0x00#8) = .ok .busSlot0 ∧
  decode (.wire 0xCC#8) = .ok .owSkiprom ∧
  decode (.wire 0xBE#8) = .ok .owReadsp ∧
  decode (.write 0x03#5 0x01#8) = .error (.plainWrite 0x03#5)

/-- Decoding the code of a well-formed instruction gives the instruction back, for every constructor and
every operand its row admits (30_encoding.md; the ILLCMD rows overlap, log 12). -/
def Obligations.DecodeOfEncodeIsTheInstruction : Prop :=
  ∀ i : Instr, i.wf = true → decode (encode i) = .ok i

/-- A code that decodes is the encoding of the instruction it decodes to, and that instruction is well
formed: no two codes are one instruction (30_encoding.md). -/
def Obligations.EncodeOfDecodeIsTheCode : Prop :=
  ∀ (c : Code) (i : Instr), decode c = .ok i → i.wf = true ∧ encode i = c

/-- The opcode map (R91): the bytes 0x00 to 0x07 are the eight commands, and every byte from 0x08 on is one
of the illegal rows, carrying the byte itself. -/
def Obligations.OpcodeMapOfCmd : Prop :=
  decodeCmd 0x00#8 = .nop ∧ decodeCmd 0x01#8 = .reset ∧ decodeCmd 0x02#8 = .wbit ∧
  decodeCmd 0x03#8 = .xbyte ∧ decodeCmd 0x04#8 = .write ∧ decodeCmd 0x05#8 = .read ∧
  decodeCmd 0x06#8 = .readrom ∧ decodeCmd 0x07#8 = .readtemp ∧
  ∀ v : Byte, 8 ≤ v.toNat →
    decodeCmd v = .illcmdOpc v ∨ decodeCmd v = .illcmdRsv4 v ∨ decodeCmd v = .illcmdRsv5 v ∨
    decodeCmd v = .illcmdRsv6 v ∨ decodeCmd v = .illcmdRsv7 v

/-! ## The step -/

/-- When the code the machine fetches decodes to an instruction, the step is `exec` of it at the same state
with the script moved on (log 1, log 3). -/
def Obligations.StepRunsTheFetchedInstruction : Prop :=
  ∀ (s : State) (c : Code) (i : Instr), fetch s = some c → decode c = .ok i →
    step s = exec i { s with inputs := s.inputs.tail }

/-- A host access that is a row of the opcode table runs as its instruction: a write of any byte to CMD,
a write to CRC or CRCIN, a read of CRC (R22, R61, R154 to R156). -/
def Obligations.HostAccessRunsItsInstruction : Prop :=
  ∀ (s : State) (rest : List Input) (v : Byte),
    (s.inputs = hostWrite 0x00#5 v :: rest → step s = exec (decodeCmd v) { s with inputs := rest }) ∧
    (s.inputs = hostWrite 0x06#5 v :: rest → step s = exec (.crcld v) { s with inputs := rest }) ∧
    (s.inputs = hostWrite 0x07#5 v :: rest → step s = exec (.crcin v) { s with inputs := rest }) ∧
    (s.inputs = hostRead1 0x06#5 :: rest → step s = exec .crcrd { s with inputs := rest })

/-- On the block's own turn with nothing outstanding, a position that sends runs the instruction of what it
sends: the reset frame, the slot frame of the bit in question, or, at the start of an owWrite of the
block's own sequences, the command byte (R95, R98, R121). The model's choices in it: that slot 0 of such an
owWrite runs the OW instruction and its other seven slots BUS.SLOT0 or BUS.SLOT1 is log 18, that the issue is a
step of its own log 3. -/
def Obligations.SendingPositionsRunTheirInstruction : Prop :=
  ∀ (s : State) (rest : List Input), (s.inputs = [] ∧ rest = [] ∨ s.inputs = .tick :: rest) →
    s.pend = .none →
    (∀ c, s.seq = .txPulse c → step s = exec .busResetpulse { s with inputs := rest }) ∧
    (s.seq = .txBit →
      step s = exec (if s.work.d.getLsbD 0 then .busSlot1 else .busSlot0) { s with inputs := rest }) ∧
    (∀ c i, s.seq = .txByte c i → (i ≠ 0 ∨ c.command = none) →
      step s = exec (if s.work.b.getLsbD i.val then .busSlot1 else .busSlot0)
        { s with inputs := rest }) ∧
    (s.seq = .txByte .romCommand 0 → step s = exec .owReadrom { s with inputs := rest }) ∧
    (s.seq = .txByte .tempSkip1 0 → step s = exec .owSkiprom { s with inputs := rest }) ∧
    (s.seq = .txByte .tempSkip2 0 → step s = exec .owSkiprom { s with inputs := rest }) ∧
    (s.seq = .txByte .tempConvert 0 → step s = exec .owConvert { s with inputs := rest }) ∧
    (s.seq = .txByte .tempReadSp 0 → step s = exec .owReadsp { s with inputs := rest })

/-- R62: an access of one byte inside the window has a next state; any other width, and any offset outside
[0..32), is refused, so the machine takes no step. -/
def Obligations.OnlyByteAccessesInTheWindow : Prop :=
  ∀ (s : State) (rest : List Input),
    (∀ off bytes, s.inputs = .host (.write off bytes) :: rest →
      if off < 32 ∧ bytes.length = 1 then ∃ t, step s = .next t else ∃ r, step s = .refused r) ∧
    (∀ off n, s.inputs = .host (.read off n) :: rest →
      if off < 32 ∧ n = 1 then ∃ t, step s = .next t else ∃ r, step s = .refused r)

/-- A host read of any offset returns the register's byte and changes nothing in the block (R19, R61, R64);
where the byte arrives is the model's `rdata` (log 10). -/
def Obligations.HostReadReturnsTheRegister : Prop :=
  ∀ (s : State) (rest : List Input) (off : Offset), s.inputs = hostRead1 off :: rest →
    step s = .next { s with inputs := rest, rdata := some (readReg off s) }

/-- The register map as the host reads it (R21): each register at its offset, the write-only CMD and CRCIN
and the reserved offsets 0x19 to 0x1F as 0x00. -/
def Obligations.RegisterMap : Prop :=
  ∀ s : State,
    readReg 0x00#5 s = 0x00#8 ∧ readReg 0x01#5 s = statusByte s.status ∧
    readReg 0x02#5 s = s.result ∧ readReg 0x03#5 s = s.data ∧ readReg 0x04#5 s = s.rxdata ∧
    readReg 0x05#5 s = s.echo ∧ readReg 0x06#5 s = s.crc ∧ readReg 0x07#5 s = 0x00#8 ∧
    (∀ k : Fin 8, readReg (BitVec.ofNat 5 (0x08 + k.val)) s = s.rom[k]) ∧
    (∀ k : Fin 9, readReg (BitVec.ofNat 5 (0x10 + k.val)) s = s.sp[k]) ∧
    ∀ off : Offset, 0x19 ≤ off.toNat → readReg off s = 0x00#8

/-- STATUS as the host reads it: bit 0 BUSY, 1 DONE, 2 ERR, 3 PRES, 4 ROMV, 5 TEMPV, 6 CMDERR, 7 LCFG
(R23; LCFG 0 = NORMAL, 1 = RESET, R31). -/
def Obligations.StatusBits : Prop :=
  ∀ st : Status,
    (statusByte st).getLsbD 0 = st.busy ∧ (statusByte st).getLsbD 1 = st.done ∧
    (statusByte st).getLsbD 2 = st.err ∧ (statusByte st).getLsbD 3 = st.pres ∧
    (statusByte st).getLsbD 4 = st.romv ∧ (statusByte st).getLsbD 5 = st.tempv ∧
    (statusByte st).getLsbD 6 = st.cmderr ∧
    ((statusByte st).getLsbD 7 = true ↔ st.lcfg = .reset)

/-- A host write of DATA stores the byte and does nothing else, whether or not a command runs (R33). A host
write of a read-only or of a reserved offset has no effect at all (R19, R20). -/
def Obligations.PlainWrites : Prop :=
  ∀ (s : State) (rest : List Input) (off : Offset) (v : Byte), s.inputs = hostWrite off v :: rest →
    (off = 0x03#5 → step s = .next { s with inputs := rest, data := v }) ∧
    (off = 0x01#5 ∨ off = 0x02#5 ∨ off = 0x04#5 ∨ off = 0x05#5 ∨ 8 ≤ off.toNat →
      step s = .next { s with inputs := rest })

/-- R20: a host read of a reserved offset returns 0x00, a host write has no effect. -/
def Obligations.ReservedOffsets : Prop :=
  ∀ (s : State) (rest : List Input) (off : Offset) (v : Byte), 0x19 ≤ off.toNat →
    (s.inputs = hostRead1 off :: rest →
      step s = .next { s with inputs := rest, rdata := some 0x00#8 }) ∧
    (s.inputs = hostWrite off v :: rest → step s = .next { s with inputs := rest })

/-- The host's `poll` reads STATUS; it reads again after another agent has moved while BUSY = 1, and ends
when BUSY reads 0 (R102; the tick between two reads is log 21). -/
def Obligations.PollReadsStatusUntilIdle : Prop :=
  ∀ (s : State) (rest : List Input), s.inputs = .poll :: rest →
    step s = .next { s with
      rdata := some (statusByte s.status)
      inputs := if s.status.busy then .tick :: .poll :: rest else rest }

/-! ## Acceptance -/

/-- NOP (R130): accepted, it commits OK in the same step: RESULT 0x00, ERR 0, DONE 1, CMDERR 0, nothing else
the host can see changes, and no request is issued; while BUSY = 1 it only sets CMDERR. From reset it gives
STATUS 0x02 and RESULT 0x00. -/
def Obligations.NopCommitsOk : Prop :=
  (∀ s : State,
    (s.status.busy = false → ∃ t, exec .nop s = .next t ∧ t = { s with
      result := 0x00#8
      status := { s.status with busy := false, cmderr := false, done := true, err := false }
      work := t.work
      seq := .idle }) ∧
    (s.status.busy = true → exec .nop s = .next { s with status.cmderr := true })) ∧
  ∃ t, exec .nop State.reset = .next t ∧ readReg 0x01#5 t = 0x02#8 ∧ readReg 0x02#5 t = 0x00#8

/-- A CMD byte is illegal when its RSV field is not 0000 or its OPC field is 0x8 to 0xF, which is every byte
from 0x08 on (R93): while BUSY = 0 it completes at once with RESULT = ILLCMD, DONE = 1, ERR = 1 and no
request, and changes nothing else the host can see; while BUSY = 1 it sets CMDERR. -/
def Obligations.IllegalBytesCommitIllcmd : Prop :=
  ∀ (s : State) (v : Byte),
    (v.extractLsb' 4 4 ≠ 0x0#4 ∨ 8 ≤ (v.extractLsb' 0 4).toNat ↔ 8 ≤ v.toNat) ∧
    (8 ≤ v.toNat → s.status.busy = false → ∃ t, exec (decodeCmd v) s = .next t ∧ t = { s with
      result := 0x08#8
      status := { s.status with busy := false, cmderr := false, done := true, err := true }
      work := t.work
      seq := .idle }) ∧
    (8 ≤ v.toNat → s.status.busy = true →
      exec (decodeCmd v) s = .next { s with status.cmderr := true })

/-- The five ILLCMD instructions, on any operand and any idle state, complete with RESULT = ILLCMD (R93). -/
def Obligations.IllcmdInstructionsComplete : Prop :=
  ∀ (s : State) (v : Byte) (i : Instr),
    (i = .illcmdOpc v ∨ i = .illcmdRsv4 v ∨ i = .illcmdRsv5 v ∨ i = .illcmdRsv6 v ∨
      i = .illcmdRsv7 v) →
    s.status.busy = false → ∃ t, exec i s = .next t ∧
      t.result = 0x08#8 ∧ t.status.done = true ∧ t.status.err = true ∧ t.status.busy = false ∧
      t.seq = .idle ∧ t.pend = s.pend ∧
      ∀ off : Offset, off ≠ 0x01#5 → off ≠ 0x02#5 → readReg off t = readReg off s

/-- What acceptance of RESET, WBIT, XBYTE, WRITE, READ, READROM and READTEMP leaves (R46): the flags, the
latched opcode and operand, the staged PRES and ECHO, BUSY, and the start of the command's pseudocode. XBYTE
and WRITE start writeByte with the latched operand, READ with 0xFF (R129, R133 to R135). The model's choices in
it: s_rx, s_rom, s_sp and s_code, which R44 leaves unspecified, keep what they held (log 9), and so do the
locals e and acc; the local b is loaded as log 15 says. -/
def Obligations.CommandsStart : Prop :=
  ∀ s : State, s.status.busy = false →
    let st := { s.status with busy := true, cmderr := false, done := false, err := false }
    let w := { s.work with d := s.data, sPres := s.status.pres, sEcho := s.echo, sRxv := false }
    exec .reset s = .next { s with
      status := st, work := { w with op := 0x1#4 }, seq := .cfgReset .cmd } ∧
    exec .wbit s = .next { s with status := st, work := { w with op := 0x2#4 }, seq := .txBit } ∧
    exec .xbyte s = .next { s with
      status := st, work := { w with op := 0x3#4, b := s.data }, seq := .txByte .xbyte 0 } ∧
    exec .write s = .next { s with
      status := st, work := { w with op := 0x4#4, b := s.data }, seq := .txByte .write 0 } ∧
    exec .read s = .next { s with
      status := st, work := { w with op := 0x5#4, b := 0xFF#8 }, seq := .txByte .read 0 } ∧
    exec .readrom s = .next { s with
      status := { st with romv := false }, work := { w with op := 0x6#4 }, seq := .cfgReset .rom } ∧
    exec .readtemp s = .next { s with
      status := { st with tempv := false }, work := { w with op := 0x7#4 }, seq := .cfgReset .temp1 }

/-- A command written while BUSY = 1 sets CMDERR and changes nothing else; the running command continues
(R30, R46, R93), for every byte that can be written to CMD. -/
def Obligations.CommandsWhileBusySetCmderr : Prop :=
  ∀ (s : State) (v : Byte), s.status.busy = true →
    exec (decodeCmd v) s = .next { s with status.cmderr := true }

/-- A write of one of the seven commands that take time (RESET to READTEMP), accepted or rejected, changes no
register the host can read but STATUS, and issues no request (R45, R46). NOP and the illegal bytes, which
commit at once, are NopCommitsOk's and IllegalBytesCommitIllcmd's. -/
def Obligations.CommandWritesChangeOnlyStatus : Prop :=
  ∀ (s t : State) (i : Instr),
    (i = .reset ∨ i = .wbit ∨ i = .xbyte ∨ i = .write ∨ i = .read ∨ i = .readrom ∨ i = .readtemp) →
    exec i s = .next t →
    (∀ off : Offset, off ≠ 0x01#5 → readReg off t = readReg off s) ∧
    t.status.pres = s.status.pres ∧ t.status.lcfg = s.status.lcfg ∧
    (i ≠ .readrom → t.status.romv = s.status.romv) ∧
    (i ≠ .readtemp → t.status.tempv = s.status.tempv) ∧
    t.pend = s.pend ∧ t.timer = s.timer ∧ t.rdata = s.rdata ∧ t.inputs = s.inputs ∧
    t.draws = s.draws

/-! ## The CRC unit -/

/-- R154: a write of CRCIN feeds one byte and changes nothing else, whatever the machine is doing; a byte equal
to the accumulator gives 0x00; a read of CRCIN returns 0x00 and feeds nothing; from CRC = 0x00 the byte 0x01
gives 0x5E. -/
def Obligations.CrcinFeedsOneByte : Prop :=
  (∀ (s : State) (v : Byte), exec (.crcin v) s = .next { s with crc := crc8Byte s.crc v }) ∧
  (∀ (s : State) (rest : List Input) (v : Byte), s.inputs = hostWrite 0x07#5 v :: rest →
    step s = .next { s with inputs := rest, crc := crc8Byte s.crc v }) ∧
  (∀ c : Byte, crc8Byte c c = 0x00#8) ∧
  (∀ (s : State) (rest : List Input), s.inputs = hostRead1 0x07#5 :: rest →
    step s = .next { s with inputs := rest, rdata := some 0x00#8 }) ∧
  crc8Byte 0x00#8 0x01#8 = 0x5E#8

/-- R155: a write of CRC stores the byte and changes nothing else, whatever the machine is doing; a
computation goes on from the byte stored, so that CRC 0xE1 and CRCIN 0x01 give 0xE9, the CRC of 28 01. -/
def Obligations.CrcldStores : Prop :=
  (∀ (s : State) (v : Byte), exec (.crcld v) s = .next { s with crc := v }) ∧
  (∀ (s : State) (rest : List Input) (v : Byte), s.inputs = hostWrite 0x06#5 v :: rest →
    step s = .next { s with inputs := rest, crc := v }) ∧
  (∀ as bs : List Byte, crc8 (as ++ bs) = bs.foldl crc8Byte (crc8 as)) ∧
  crc8Byte 0xE1#8 0x01#8 = 0xE9#8 ∧ crc8 [0x28#8, 0x01#8] = 0xE9#8

/-- R156: a read of CRC returns it to the host and changes nothing in the block. After CRC has been cleared and
the bytes of a buffer and its trailing byte have been fed, it returns 0x00 exactly when the trailing byte is
the buffer's CRC. After 02 1C B8 01 00 00 00 it returns 0xA2. -/
def Obligations.CrcrdReturnsCrc : Prop :=
  (∀ s : State, exec .crcrd s = .next { s with rdata := some s.crc }) ∧
  (∀ (s : State) (rest : List Input) (bs : List Byte) (v : Byte),
    s.inputs = hostWrite 0x06#5 0x00#8 ::
      ((bs ++ [v]).map (hostWrite 0x07#5) ++ hostRead1 0x06#5 :: rest) →
    ∃ t, run (bs.length + 3) s = .next t ∧ (t.rdata = some 0x00#8 ↔ v = crc8 bs)) ∧
  crc8 [0x02#8, 0x1C#8, 0xB8#8, 0x01#8, 0x00#8, 0x00#8, 0x00#8] = 0xA2#8

/-- R152: the CRC of zeros is 0; the residue of a sequence followed by a byte is 0 exactly when the byte is the
sequence's CRC; `crc8_byte` is the table T of the XOR; T is linear; the check value of "123456789" is 0xA1. -/
def Obligations.CrcProperties : Prop :=
  (crc8Byte 0x00#8 0x00#8 = 0x00#8 ∧ ∀ n, crc8 (List.replicate n 0x00#8) = 0x00#8) ∧
  (∀ bs : List Byte, crc8 (bs ++ [crc8 bs]) = 0x00#8) ∧
  (∀ c : Byte, crc8Byte c c = crc8Byte 0x00#8 0x00#8) ∧
  (∀ (bs : List Byte) (v : Byte), crc8 (bs ++ [v]) = 0x00#8 ↔ v = crc8 bs) ∧
  (∀ c b : Byte, crc8Byte c b = crc8Byte 0x00#8 (c ^^^ b)) ∧
  (∀ x y : Byte, crc8Byte 0x00#8 (x ^^^ y) = crc8Byte 0x00#8 x ^^^ crc8Byte 0x00#8 y) ∧
  crc8 [0x31#8, 0x32#8, 0x33#8, 0x34#8, 0x35#8, 0x36#8, 0x37#8, 0x38#8, 0x39#8] = 0xA1#8

/-- Writing CRC 0x00 and feeding any bytes through CRCIN leaves their CRC in the CRC register, whatever the
block is doing, and changes nothing else (R36, R151, R154, R155). -/
def Obligations.CrcUnitComputesCrc8 : Prop :=
  ∀ (s : State) (rest : List Input) (bs : List Byte),
    s.inputs = hostWrite 0x06#5 0x00#8 :: (bs.map (hostWrite 0x07#5) ++ rest) →
    run (bs.length + 1) s = .next { s with inputs := rest, crc := crc8 bs }

/-- The sequencer, the line environment and the timer neither read nor write CRC and DATA: a step of theirs
from states that differ only there gives outcomes that differ only there (R33, R36, R153). -/
def Obligations.AgentsIgnoreCrcAndData : Prop :=
  ∀ (s : State) (c v : Byte), AgentsOwn s →
    step { s with crc := c, data := v } = mapNext (fun t => { t with crc := c, data := v }) (step s)

/-- The block never writes DATA, and CRC only when the host writes CRC or CRCIN (R33, R36). -/
def Obligations.DataAndCrcAreWrittenByTheHost : Prop :=
  ∀ s t : State, step s = .next t → (∀ rest, s.inputs ≠ .blockReset :: rest) →
    (t.data ≠ s.data → ∃ v rest, s.inputs = hostWrite 0x03#5 v :: rest ∧ t.data = v) ∧
    (t.crc ≠ s.crc → ∃ v rest, s.inputs = hostWrite 0x06#5 v :: rest ∧ t.crc = v ∨
      s.inputs = hostWrite 0x07#5 v :: rest ∧ t.crc = crc8Byte s.crc v)

/-! ## Line requests -/

/-- The three frames are LineTx of 0xF0, 0xFF and 0x00: the request becomes outstanding and nothing else
changes (R95, R121). -/
def Obligations.FramesAreRequested : Prop :=
  ∀ s : State,
    exec .busResetpulse s = .next { s with pend := .tx 0xF0#8 } ∧
    exec .busSlot1 s = .next { s with pend := .tx 0xFF#8 } ∧
    exec .busSlot0 s = .next { s with pend := .tx 0x00#8 }

/-- Each command byte of the block's own sequences becomes writeByte's byte, and the frame of its bit 0
becomes outstanding; nothing else changes (R98, R127, R128; the local `b` is log 15). -/
def Obligations.CommandBytesBegin : Prop :=
  ∀ s : State,
    exec .owReadrom s = .next { s with work.b := 0x33#8, pend := .tx 0xFF#8 } ∧
    exec .owSkiprom s = .next { s with work.b := 0xCC#8, pend := .tx 0x00#8 } ∧
    exec .owConvert s = .next { s with work.b := 0x44#8, pend := .tx 0x00#8 } ∧
    exec .owReadsp s = .next { s with work.b := 0xBE#8, pend := .tx 0x00#8 }

/-- R95: the only frames the block has outstanding are 0xF0, in RESET configuration, and 0xFF and 0x00, in
NORMAL configuration; a slot is 0xFF exactly when its bit is 1, of the operand for WBIT (d[0]) and of the
call's byte for writeByte. -/
def Obligations.FramesInTheirConfiguration : Prop :=
  ∀ (s : State) (b : Byte), Invariant s → s.pend = .tx b →
    (b = 0xF0#8 ∧ s.status.lcfg = .reset ∧ (∃ c, s.seq = .txPulse c) ∨
      (b = 0xFF#8 ∨ b = 0x00#8) ∧ s.status.lcfg = .normal) ∧
    (s.seq = .txBit → b = if s.work.d.getLsbD 0 then 0xFF#8 else 0x00#8) ∧
    ∀ c i, s.seq = .txByte c i →
      b = if (c.operand s.work.d).getLsbD i.val then 0xFF#8 else 0x00#8

/-- R96: an echo shows presence exactly when it is neither 0x00 nor 0xF0. -/
def Obligations.PresenceDecode : Prop :=
  ∀ e : Byte, presence e = true ↔ e ≠ 0x00#8 ∧ e ≠ 0xF0#8

/-- Bit i of writeByte's readback is bit 0 of the echo of slot i (R67, R97, R127; 90_conflicts.md C1). -/
def Obligations.ReadbackBitIsEchoBit : Prop :=
  ∀ (echoes : Vector Byte 8) (i : Fin 8),
    (readback echoes.toList).getLsbD i.val = echoes[i].getLsbD 0

/-- A failed answer (R121, R122, R201): the request is no longer outstanding, the code is staged, and the
sequencer stands at busReset's finally when the request was inside its try, else at the commit; nothing else
changes. -/
def Obligations.FailedRequestsRaise : Prop :=
  ∀ (s : State) (rest : List Input) (code : ResultCode), Invariant s →
    ((∃ b, s.pend = .tx b) ∧
        (s.inputs = .tx .timeout :: rest ∧ code = .timeout ∨
          s.inputs = .tx .ioError :: rest ∧ code = .ioErr) ∨
      s.pend = .rx ∧
        (s.inputs = .rx .timeout :: rest ∧ code = .timeout ∨
          s.inputs = .rx .ioError :: rest ∧ code = .ioErr)) →
    (∀ c, s.seq = .txPulse c ∨ s.seq = .rxEcho c →
      step s = .next { s with
        inputs := rest, pend := .none, seq := .cfgNormal c true, work.sCode := code }) ∧
    ((∀ c, s.seq ≠ .txPulse c ∧ s.seq ≠ .rxEcho c) →
      step s = .next { s with inputs := rest, pend := .none, seq := .commit, work.sCode := code })

/-- An answer that fits no outstanding request is ignored (R240, "an answer to it that arrives later is
ignored"; for answers in general this is the model's reading, log 13). -/
def Obligations.UnaskedAnswersAreIgnored : Prop :=
  ∀ (s : State) (rest : List Input) (i : Input), s.inputs = i :: rest →
    ((∃ a, i = .tx a) ∧ (∀ b, s.pend ≠ .tx b) ∨ (∃ a, i = .rx a) ∧ s.pend ≠ .rx ∨
      (∃ ms, i = .timer ms) ∧ s.pend ≠ .wait) →
    step s = .next { s with inputs := rest }

/-- R123: the Wait ends when the timer reports that at least 800 ms have passed, and then READTEMP goes on
with its second bus reset; an earlier report does not end it. -/
def Obligations.WaitEndsFrom800Ms : Prop :=
  ∀ (s : State) (rest : List Input) (ms : Nat), s.pend = .wait → s.seq = .wait →
    s.inputs = .timer ms :: rest →
    (800 ≤ ms → step s = .next { s with
      inputs := rest, pend := .none, timer := .stopped, seq := .cfgReset .temp2 }) ∧
    (ms < 800 → step s = .next { s with inputs := rest })

/-- Nothing but the timer and block reset ends a Wait (R123, "nothing cancels it"): after any other step the
Wait is still outstanding and the sequencer still stands at it. -/
def Obligations.NothingCancelsTheWait : Prop :=
  ∀ s t : State, s.pend = .wait → s.seq = .wait → s.status.busy = true → step s = .next t →
    s.inputs ≠ [] → (∀ rest, s.inputs ≠ .tick :: rest) → (∀ ms rest, s.inputs ≠ .timer ms :: rest) →
    (∀ rest, s.inputs ≠ .blockReset :: rest) →
    t.pend = .wait ∧ t.seq = .wait ∧ t.timer = s.timer

/-! ## Commit and whole commands -/

/-- The commit step copies the staged results, and is the only change of that step (R45). The model's choices in
it: that the commit is a step of its own is log 4, and that op, d and the staged values, unspecified once
BUSY = 0 (R43, R44), keep what they held is log 9. -/
def Obligations.CommitCopiesTheStagedResults : Prop :=
  ∀ (s : State) (rest : List Input), s.seq = .commit → s.pend = .none → s.inputs = .tick :: rest →
    step s = .next { s with
      inputs := rest
      result := codeByte s.work.sCode
      status := { s.status with
        err := decide (codeByte s.work.sCode ≠ 0x00#8)
        pres := s.work.sPres
        romv := s.status.romv || decide (s.work.op = 0x6#4 ∧ codeByte s.work.sCode = 0x00#8)
        tempv := s.status.tempv || decide (s.work.op = 0x7#4 ∧ codeByte s.work.sCode = 0x00#8)
        done := true
        busy := false }
      echo := s.work.sEcho
      rxdata :=
        if (s.work.op = 0x2#4 ∨ s.work.op = 0x3#4 ∨ s.work.op = 0x4#4 ∨ s.work.op = 0x5#4) ∧
            s.work.sRxv = true
        then s.work.sRx else s.rxdata
      rom := if s.work.op = 0x6#4 ∧ codeByte s.work.sCode = 0x00#8 then s.work.sRom else s.rom
      sp := if s.work.op = 0x7#4 ∧ codeByte s.work.sCode = 0x00#8 then s.work.sSp else s.sp
      seq := .idle }

/-- RESET run to its commit when its frame is taken and the echo `e` arrives (R125, R131): NODEV_RESET
exactly for the echoes 0x00 and 0xF0, PRES and ECHO from the echo, the line configuration NORMAL again, and
no other register changed. -/
def Obligations.ResetCommandRuns : Prop :=
  ∀ (s : State) (e : Byte) (rest : List Input), s.status.busy = false → s.pend = .none →
    s.inputs = hostWrite 0x00#5 0x01#8 :: (resetScript e ++ .tick :: rest) →
    ∃ t, run 8 s = .next t ∧ t = { s with
      inputs := rest
      result := if e = 0x00#8 ∨ e = 0xF0#8 then 0x01#8 else 0x00#8
      status := { s.status with
        busy := false, cmderr := false, done := true, lcfg := .normal
        err := decide (e = 0x00#8 ∨ e = 0xF0#8), pres := !decide (e = 0x00#8 ∨ e = 0xF0#8) }
      echo := e
      work := t.work
      seq := .idle }

/-- RESET whose frame or whose echo fails (R125, R131): TIMEOUT or IOERR, PRES 0, ECHO unchanged, and the
line configuration is NORMAL again at the commit; after a failed frame no echo is asked for. -/
def Obligations.FailedResetRestoresTheLine : Prop :=
  ∀ (s : State) (rest : List Input) (code : Byte), s.status.busy = false → s.pend = .none →
    (∀ a, (a = .timeout ∧ code = 0x05#8 ∨ a = .ioError ∧ code = 0x06#8) →
      s.inputs = hostWrite 0x00#5 0x01#8 :: .tick :: .tick :: .tx a :: .tick :: .tick :: rest →
      ∃ t, run 6 s = .next t ∧ t = { s with
        inputs := rest
        result := code
        status := { s.status with
          busy := false, cmderr := false, done := true, err := true, pres := false, lcfg := .normal }
        work := t.work
        seq := .idle }) ∧
    (∀ a, (a = .timeout ∧ code = 0x05#8 ∨ a = .ioError ∧ code = 0x06#8) →
      s.inputs = hostWrite 0x00#5 0x01#8 :: .tick :: .tick :: .tx .ok :: .tick :: .rx a :: .tick ::
        .tick :: rest →
      ∃ t, run 8 s = .next t ∧ t = { s with
        inputs := rest
        result := code
        status := { s.status with
          busy := false, cmderr := false, done := true, err := true, pres := false, lcfg := .normal }
        work := t.work
        seq := .idle })

/-- WBIT run to its commit (R126, R132): OK, RXDATA is bit 0 of the echo, and no other register changes. -/
def Obligations.WbitCommandRuns : Prop :=
  ∀ (s : State) (r : Byte) (rest : List Input), s.status.busy = false → s.pend = .none →
    s.inputs = hostWrite 0x00#5 0x02#8 :: .tick :: .tx .ok :: .tick :: .rx (.byte r) :: .tick :: rest →
    ∃ t, run 6 s = .next t ∧ t = { s with
      inputs := rest
      result := 0x00#8
      status := { s.status with
        busy := false, cmderr := false, done := true, err := false }
      rxdata := r &&& 0x01#8
      work := t.work
      seq := .idle }

/-- XBYTE and READ run to their commit when every frame is taken and every echo arrives (R127, R133, R135):
OK, RXDATA is the readback whatever was sent, and no other register changes. -/
def Obligations.XbyteAndReadCommandsRun : Prop :=
  ∀ (s : State) (cmd : Byte) (echoes : Vector Byte 8) (rest : List Input),
    (cmd = 0x03#8 ∨ cmd = 0x05#8) → s.status.busy = false → s.pend = .none →
    s.inputs = hostWrite 0x00#5 cmd :: (byteScript echoes.toList ++ .tick :: rest) →
    ∃ t, run 34 s = .next t ∧ t = { s with
      inputs := rest
      result := 0x00#8
      status := { s.status with
        busy := false, cmderr := false, done := true, err := false }
      rxdata := readback echoes.toList
      work := t.work
      seq := .idle }

/-- WRITE run to its commit when every frame is taken and every echo arrives (R128, R134): OK when the
readback is DATA, else NODEV_WRITE; RXDATA is the readback in both cases, and no other register changes. -/
def Obligations.WriteCommandRuns : Prop :=
  ∀ (s : State) (echoes : Vector Byte 8) (rest : List Input),
    s.status.busy = false → s.pend = .none →
    s.inputs = hostWrite 0x00#5 0x04#8 :: (byteScript echoes.toList ++ .tick :: rest) →
    ∃ t, run 34 s = .next t ∧ t = { s with
      inputs := rest
      result := if readback echoes.toList = s.data then 0x00#8 else 0x02#8
      status := { s.status with
        busy := false, cmderr := false, done := true
        err := decide (readback echoes.toList ≠ s.data) }
      rxdata := readback echoes.toList
      work := t.work
      seq := .idle }

/-- READROM on the full path (R170): presence seen, 0x33 confirmed, eight bytes read. OK exactly when the
CRC of the first seven is the eighth; then ROM0 to ROM7 are the bytes and ROMV is 1, else the result is
CRCERR, ROM0 to ROM7 keep their values and ROMV is 0. RXDATA, CRC and every other register keep theirs. -/
def Obligations.ReadromRuns : Prop :=
  ∀ (s : State) (e : Byte) (cmd : Vector Byte 8) (echoes : Vector (Vector Byte 8) 8)
    (rest : List Input), s.status.busy = false → s.pend = .none →
    e ≠ 0x00#8 → e ≠ 0xF0#8 → readback cmd.toList = 0x33#8 →
    s.inputs = hostWrite 0x00#5 0x06#8 ::
      (resetScript e ++ (byteScript cmd.toList ++ (readsScript echoes ++ .tick :: rest))) →
    ∃ t, run 296 s = .next t ∧ t = { s with
      inputs := rest
      result := romResult (bytesOf echoes)
      status := { s.status with
        busy := false, cmderr := false, done := true, pres := true, lcfg := .normal
        err := decide (romResult (bytesOf echoes) ≠ 0x00#8)
        romv := decide (romResult (bytesOf echoes) = 0x00#8) }
      echo := e
      rom := if romResult (bytesOf echoes) = 0x00#8 then bytesOf echoes else s.rom
      work := t.work
      seq := .idle }

/-- READROM that fails early (R170, R203): no presence ends it with NODEV_RESET after the reset, a readback
other than 0x33 with NODEV_WRITE after the command byte; ROM0 to ROM7 keep their values and ROMV is 0. -/
def Obligations.ReadromFailsFast : Prop :=
  ∀ (s : State) (e : Byte) (cmd : Vector Byte 8) (rest : List Input),
    s.status.busy = false → s.pend = .none →
    (e = 0x00#8 ∨ e = 0xF0#8 →
      s.inputs = hostWrite 0x00#5 0x06#8 :: (resetScript e ++ .tick :: rest) →
      ∃ t, run 8 s = .next t ∧ t = { s with
        inputs := rest
        result := 0x01#8
        status := { s.status with
          busy := false, cmderr := false, done := true, err := true, pres := false, romv := false
          lcfg := .normal }
        echo := e
        work := t.work
        seq := .idle }) ∧
    (e ≠ 0x00#8 → e ≠ 0xF0#8 → readback cmd.toList ≠ 0x33#8 →
      s.inputs = hostWrite 0x00#5 0x06#8 ::
        (resetScript e ++ (byteScript cmd.toList ++ .tick :: rest)) →
      ∃ t, run 40 s = .next t ∧ t = { s with
        inputs := rest
        result := 0x02#8
        status := { s.status with
          busy := false, cmderr := false, done := true, err := true, pres := true, romv := false
          lcfg := .normal }
        echo := e
        work := t.work
        seq := .idle })

/-- READTEMP on the full path (R180 to R184): both resets see presence, the four command bytes are
confirmed, the Wait ends, nine bytes are read. The result is the first failing check (configuration byte,
CRC, absolute zero) or OK; on OK SP0 to SP8 are the bytes and TEMPV is 1, else they keep their values and
TEMPV is 0. RXDATA, CRC and every other register keep theirs. -/
def Obligations.ReadtempRuns : Prop :=
  ∀ (s : State) (e1 e2 : Byte) (c1 c2 c3 c4 : Vector Byte 8) (ms : Nat)
    (echoes : Vector (Vector Byte 8) 9) (rest : List Input), s.status.busy = false → s.pend = .none →
    e1 ≠ 0x00#8 → e1 ≠ 0xF0#8 → e2 ≠ 0x00#8 → e2 ≠ 0xF0#8 →
    readback c1.toList = 0xCC#8 → readback c2.toList = 0x44#8 → readback c3.toList = 0xCC#8 →
    readback c4.toList = 0xBE#8 → 800 ≤ ms →
    s.inputs = hostWrite 0x00#5 0x07#8 ::
      (resetScript e1 ++ (byteScript c1.toList ++ (byteScript c2.toList ++ (.tick :: .timer ms ::
        (resetScript e2 ++ (byteScript c3.toList ++ (byteScript c4.toList ++
          (readsScript echoes ++ .tick :: rest)))))))) →
    ∃ t, run 432 s = .next t ∧ t = { s with
      inputs := rest
      result := tempResult (bytesOf echoes)
      status := { s.status with
        busy := false, cmderr := false, done := true, pres := true, lcfg := .normal
        err := decide (tempResult (bytesOf echoes) ≠ 0x00#8)
        tempv := decide (tempResult (bytesOf echoes) = 0x00#8) }
      echo := e2
      sp := if tempResult (bytesOf echoes) = 0x00#8 then bytesOf echoes else s.sp
      work := t.work
      timer := .stopped
      seq := .idle }

/-- READTEMP that fails before its reads, at each step that can (R180 steps 1 to 7, R203): no presence at the
first or the second reset is NODEV_RESET; an unconfirmed Skip-ROM or Convert-Temperature before the Wait, and an
unconfirmed Skip-ROM or Read-Scratchpad after it, is NODEV_WRITE. PRES and ECHO are those of the last reset that
ran, SP0 to SP8 keep their values, TEMPV is 0, and the timer is untouched before the Wait and stopped after it. -/
def Obligations.ReadtempFailsFast : Prop :=
  ∀ (s : State) (e1 e2 : Byte) (c1 c2 c3 c4 : Vector Byte 8) (ms : Nat) (rest : List Input),
    s.status.busy = false → s.pend = .none →
    let failed (code : Byte) (pres : Bool) (e : Byte) (t : State) : State := { s with
      inputs := rest
      result := code
      status := { s.status with
        busy := false, cmderr := false, done := true, err := true, pres := pres, tempv := false
        lcfg := .normal }
      echo := e
      work := t.work
      timer := t.timer
      seq := .idle }
    (e1 = 0x00#8 ∨ e1 = 0xF0#8 →
      s.inputs = hostWrite 0x00#5 0x07#8 :: (resetScript e1 ++ .tick :: rest) →
      ∃ t, run 8 s = .next t ∧ t = failed 0x01#8 false e1 t ∧ t.timer = s.timer) ∧
    (e1 ≠ 0x00#8 → e1 ≠ 0xF0#8 → readback c1.toList ≠ 0xCC#8 →
      s.inputs = hostWrite 0x00#5 0x07#8 ::
        (resetScript e1 ++ (byteScript c1.toList ++ .tick :: rest)) →
      ∃ t, run 40 s = .next t ∧ t = failed 0x02#8 true e1 t ∧ t.timer = s.timer) ∧
    (e1 ≠ 0x00#8 → e1 ≠ 0xF0#8 → readback c1.toList = 0xCC#8 → readback c2.toList ≠ 0x44#8 →
      s.inputs = hostWrite 0x00#5 0x07#8 ::
        (resetScript e1 ++ (byteScript c1.toList ++ (byteScript c2.toList ++ .tick :: rest))) →
      ∃ t, run 72 s = .next t ∧ t = failed 0x02#8 true e1 t ∧ t.timer = s.timer) ∧
    (e1 ≠ 0x00#8 → e1 ≠ 0xF0#8 → readback c1.toList = 0xCC#8 → readback c2.toList = 0x44#8 →
      800 ≤ ms → e2 = 0x00#8 ∨ e2 = 0xF0#8 →
      s.inputs = hostWrite 0x00#5 0x07#8 ::
        (resetScript e1 ++ (byteScript c1.toList ++ (byteScript c2.toList ++ (.tick :: .timer ms ::
          (resetScript e2 ++ .tick :: rest))))) →
      ∃ t, run 80 s = .next t ∧ t = failed 0x01#8 false e2 t ∧ t.timer = .stopped) ∧
    (e1 ≠ 0x00#8 → e1 ≠ 0xF0#8 → readback c1.toList = 0xCC#8 → readback c2.toList = 0x44#8 →
      800 ≤ ms → e2 ≠ 0x00#8 → e2 ≠ 0xF0#8 → readback c3.toList ≠ 0xCC#8 →
      s.inputs = hostWrite 0x00#5 0x07#8 ::
        (resetScript e1 ++ (byteScript c1.toList ++ (byteScript c2.toList ++ (.tick :: .timer ms ::
          (resetScript e2 ++ (byteScript c3.toList ++ .tick :: rest)))))) →
      ∃ t, run 112 s = .next t ∧ t = failed 0x02#8 true e2 t ∧ t.timer = .stopped) ∧
    (e1 ≠ 0x00#8 → e1 ≠ 0xF0#8 → readback c1.toList = 0xCC#8 → readback c2.toList = 0x44#8 →
      800 ≤ ms → e2 ≠ 0x00#8 → e2 ≠ 0xF0#8 → readback c3.toList = 0xCC#8 →
      readback c4.toList ≠ 0xBE#8 →
      s.inputs = hostWrite 0x00#5 0x07#8 ::
        (resetScript e1 ++ (byteScript c1.toList ++ (byteScript c2.toList ++ (.tick :: .timer ms ::
          (resetScript e2 ++ (byteScript c3.toList ++ (byteScript c4.toList ++ .tick :: rest))))))) →
      ∃ t, run 144 s = .next t ∧ t = failed 0x02#8 true e2 t ∧ t.timer = .stopped)

/-! ## Checks and views -/

/-- R181: the bytes that pass the configuration check are those with bit 7 clear and bits 4:0 all ones,
which are 0x1F, 0x3F, 0x5F and 0x7F. -/
def Obligations.ConfigurationCheck : Prop :=
  ∀ c : Byte,
    (cfgOk c = true ↔ c &&& 0x9F#8 = 0x1F#8) ∧
    (cfgOk c = true ↔ c.getLsbD 7 = false ∧ c.extractLsb' 0 5 = 0x1F#5) ∧
    (cfgOk c = true ↔ c = 0x1F#8 ∨ c = 0x3F#8 ∨ c = 0x5F#8 ∨ c = 0x7F#8)

/-- R184: a reading passes exactly when it is at least -4370, which in exact arithmetic is exactly when the
temperature TRAW / 16 in degrees Celsius is not below 0 K = -273.15 degrees Celsius. -/
def Obligations.AbsoluteZeroCheck : Prop :=
  ∀ t : BitVec 16,
    (aboveAbsZero t = true ↔ -4370 ≤ t.toInt) ∧
    (aboveAbsZero t = true ↔ (0 : ℚ) ≤ (t.toInt : ℚ) / 16 + 27315 / 100)

/-- TRAW is the little-endian two's-complement reading of SP0 and SP1 (R41, R183), and SERIAL packs ROM0 to
ROM7 with ROM0 most significant (R40). -/
def Obligations.BufferViews : Prop :=
  (∀ sp : Vector Byte 9, (trawOf sp).toInt =
    (if sp[1].toNat < 128 then (sp[0].toNat + 256 * sp[1].toNat : Int)
      else (sp[0].toNat + 256 * sp[1].toNat : Int) - 65536)) ∧
  (∀ rom : Vector Byte 8, (serialOf rom).toNat =
    rom.toList.foldl (fun acc v => acc * 256 + v.toNat) 0)

/-! ## Reset -/

/-- Block reset at any time (R240, R241): the running command is abandoned, every register takes its reset
value, the line is NORMAL at once, nothing is outstanding and the timer is stopped. The script moves
on and `rdata` is kept: these two are the model's own fields and the model's choices (log 1, log 10). -/
def Obligations.BlockResetValues : Prop :=
  ∀ (s : State) (rest : List Input), s.inputs = .blockReset :: rest →
    ∃ t, step s = .next t ∧
      t.status = { busy := false, done := false, err := false, pres := false, romv := false,
                   tempv := false, cmderr := false, lcfg := .normal } ∧
      statusByte t.status = 0x00#8 ∧ t.result = 0x00#8 ∧ t.data = 0x00#8 ∧ t.rxdata = 0x00#8 ∧
      t.echo = 0x00#8 ∧ t.crc = 0x00#8 ∧ (∀ k : Fin 8, t.rom[k] = 0x00#8) ∧
      (∀ k : Fin 9, t.sp[k] = 0x00#8) ∧ t.seq = .idle ∧ t.pend = .none ∧ t.timer = .stopped ∧
      t.inputs = rest ∧ t.rdata = s.rdata

/-- The state after reset (R241): every register the host can read is 0x00, the sequencer is idle, the line
NORMAL, nothing outstanding, the timer stopped; and the idle block issues nothing on its own (R242). -/
def Obligations.ResetState : Prop :=
  (∀ off : Offset, readReg off State.reset = 0x00#8) ∧ State.reset.seq = .idle ∧
  State.reset.status.lcfg = .normal ∧ State.reset.pend = .none ∧ State.reset.timer = .stopped ∧
  step State.reset = .next State.reset

/-! ## Whole-machine rules -/

/-- The invariant holds at reset. -/
def Obligations.InvAtReset : Prop := Invariant State.reset

/-- Every step keeps the invariant (R24 to R31, R42, R47, R48, R200, R211). -/
def Obligations.StepKeepsInv : Prop := ∀ s t : State, Invariant s → step s = .next t → Invariant t

/-- In every state that meets the invariant the machine goes on: no step is `Fault.stuck`, the model's own fault
for states no run reaches (log 16), and the only steps without a next state are the host accesses that R62
tells a model to refuse (R71, R206). -/
def Obligations.MachineGoesOn : Prop :=
  ∀ s : State, Invariant s →
    (∀ f, step s ≠ .fault f) ∧
    ((∀ a rest, s.inputs = .host a :: rest → ∃ c, accessCode a = .ok c) → ∃ t, step s = .next t)

/-- Every accepted command ends: with an empty script, whatever the line environment answers, at most 431
steps lead to a state with BUSY = 0 (R71, R73, R123; READTEMP's 106 frames, 106 echoes, four line
configurations, Wait and commit, each request and the Wait one step to issue and one to answer, log 3). -/
def Obligations.EveryCommandEnds : Prop :=
  ∀ s : State, Invariant s → s.inputs = [] →
    ∃ n t, n ≤ 431 ∧ run n s = .next t ∧ t.status.busy = false

/-- ROM0 to ROM7 change only at a commit of READROM with OK, SP0 to SP8 only at one of READTEMP, RXDATA only
at one of WBIT, XBYTE, WRITE or READ that has its readback, and at block reset (R34, R38, R39). -/
def Obligations.BuffersChangeOnlyAtCommit : Prop :=
  ∀ s t : State, step s = .next t → (∀ rest, s.inputs ≠ .blockReset :: rest) →
    (t.rom ≠ s.rom → s.seq = .commit ∧ s.work.op = 0x6#4 ∧ s.work.sCode = .ok ∧
      t.rom = s.work.sRom ∧ t.status.romv = true ∧ t.result = 0x00#8) ∧
    (t.sp ≠ s.sp → s.seq = .commit ∧ s.work.op = 0x7#4 ∧ s.work.sCode = .ok ∧
      t.sp = s.work.sSp ∧ t.status.tempv = true ∧ t.result = 0x00#8) ∧
    (t.rxdata ≠ s.rxdata → s.seq = .commit ∧ 2 ≤ s.work.op.toNat ∧ s.work.op.toNat ≤ 5 ∧
      s.work.sRxv = true ∧ t.rxdata = s.work.sRx)

/-- While a command runs and does not commit, RESULT, RXDATA, ECHO, ROM, SP and the STATUS fields DONE, ERR,
PRES, ROMV and TEMPV read as they were before (R45, R245). -/
def Obligations.ResultsHiddenUntilCommit : Prop :=
  ∀ s t : State, s.status.busy = true → step s = .next t → t.status.busy = true →
    (∀ off : Offset, off ≠ 0x01#5 → off ≠ 0x03#5 → off ≠ 0x06#5 → readReg off t = readReg off s) ∧
    t.status.done = s.status.done ∧ t.status.err = s.status.err ∧ t.status.pres = s.status.pres ∧
    t.status.romv = s.status.romv ∧ t.status.tempv = s.status.tempv

/-- LCFG (R31): bit 7 of STATUS, 0 = NORMAL and 1 = RESET, is the configuration the line port presents (with
the settings of R69); 0 after reset; written only by LineCfg and by block reset; NORMAL whenever BUSY = 0. -/
def Obligations.LcfgWrittenOnlyByLineCfg : Prop :=
  (∀ s t : State, step s = .next t → t.status.lcfg ≠ s.status.lcfg →
    (∃ c, s.seq = .cfgReset c ∧ t.status.lcfg = .reset) ∨
    (∃ c r, s.seq = .cfgNormal c r ∧ t.status.lcfg = .normal) ∨
    (∃ rest, s.inputs = .blockReset :: rest)) ∧
  (∀ s : State, (readReg 0x01#5 s).getLsbD 7 = true ↔ s.status.lcfg = .reset) ∧
  (∀ s : State, linePort s =
    { baud := if (readReg 0x01#5 s).getLsbD 7 then 9600 else 115200
      dataBits := if (readReg 0x01#5 s).getLsbD 7 then 8 else 6
      parity := false, stopBits := 1, handshake := false, rts := false }) ∧
  (readReg 0x01#5 State.reset).getLsbD 7 = false ∧
  ∀ s : State, Invariant s → s.status.busy = false → (readReg 0x01#5 s).getLsbD 7 = false

/-- CMDERR (R30): bit 6 of STATUS, 0 after reset; a CMD write while BUSY = 1 sets it and does nothing else; an
accepted CMD write clears it; in between it is sticky, for nothing else but block reset (R241) changes it. -/
def Obligations.CmderrIsSticky : Prop :=
  (∀ s : State, (readReg 0x01#5 s).getLsbD 6 = s.status.cmderr) ∧
  State.reset.status.cmderr = false ∧
  ∀ s t : State, step s = .next t →
    (∀ v rest, s.inputs = hostWrite 0x00#5 v :: rest →
      (s.status.busy = true → t = { s with inputs := rest, status.cmderr := true }) ∧
      (s.status.busy = false → t.status.cmderr = false)) ∧
    (s.status.cmderr = false → t.status.cmderr = true →
      s.status.busy = true ∧ ∃ v rest, s.inputs = hostWrite 0x00#5 v :: rest) ∧
    (s.status.cmderr = true → t.status.cmderr = false →
      (s.status.busy = false ∧ ∃ v rest, s.inputs = hostWrite 0x00#5 v :: rest) ∨
      ∃ rest, s.inputs = .blockReset :: rest)

/-- An idle block waits for a CMD write (R74, R242): with BUSY = 0 its own turn changes nothing, and a step that is
neither a CMD write nor a block reset leaves STATUS, RESULT, RXDATA, ECHO, ROM0 to ROM7 and SP0 to SP8 as they
were, issues no request and leaves it idle. -/
def Obligations.IdleBlockKeepsItsResults : Prop :=
  ∀ s : State, Invariant s → s.status.busy = false →
    (s.inputs = [] → step s = .next s) ∧
    (∀ rest, s.inputs = .tick :: rest → step s = .next { s with inputs := rest }) ∧
    ∀ t, step s = .next t → (∀ v rest, s.inputs ≠ hostWrite 0x00#5 v :: rest) →
      (∀ rest, s.inputs ≠ .blockReset :: rest) →
      t.status = s.status ∧ t.result = s.result ∧ t.rxdata = s.rxdata ∧ t.echo = s.echo ∧
      t.rom = s.rom ∧ t.sp = s.sp ∧ t.seq = .idle ∧ t.pend = .none ∧ t.timer = .stopped
end

