-- ==== Sys2Proof/Laws/State.lean ====
section
/-! SUPPORT. For each operation that updates the state, what each field holds afterwards: one lemma per field,
so that no later proof unfolds a record update. -/

namespace Sys2Proof.Machine

section
variable (s : State) (q : Seq)

@[simp] theorem goto_status : (goto q s).status = s.status := rfl
@[simp] theorem goto_result : (goto q s).result = s.result := rfl
@[simp] theorem goto_data : (goto q s).data = s.data := rfl
@[simp] theorem goto_rxdata : (goto q s).rxdata = s.rxdata := rfl
@[simp] theorem goto_echo : (goto q s).echo = s.echo := rfl
@[simp] theorem goto_crc : (goto q s).crc = s.crc := rfl
@[simp] theorem goto_rom : (goto q s).rom = s.rom := rfl
@[simp] theorem goto_sp : (goto q s).sp = s.sp := rfl
@[simp] theorem goto_seq : (goto q s).seq = q := rfl
@[simp] theorem goto_work : (goto q s).work = s.work := rfl
@[simp] theorem goto_pend : (goto q s).pend = s.pend := rfl
@[simp] theorem goto_timer : (goto q s).timer = s.timer := rfl
@[simp] theorem goto_rdata : (goto q s).rdata = s.rdata := rfl
@[simp] theorem goto_inputs : (goto q s).inputs = s.inputs := rfl
@[simp] theorem goto_draws : (goto q s).draws = s.draws := rfl

end

section
variable (s : State) (m : LineCfg)

@[simp] theorem lineCfg_status : (lineCfg m s).status = { s.status with lcfg := m } := rfl
@[simp] theorem lineCfg_result : (lineCfg m s).result = s.result := rfl
@[simp] theorem lineCfg_data : (lineCfg m s).data = s.data := rfl
@[simp] theorem lineCfg_rxdata : (lineCfg m s).rxdata = s.rxdata := rfl
@[simp] theorem lineCfg_echo : (lineCfg m s).echo = s.echo := rfl
@[simp] theorem lineCfg_crc : (lineCfg m s).crc = s.crc := rfl
@[simp] theorem lineCfg_rom : (lineCfg m s).rom = s.rom := rfl
@[simp] theorem lineCfg_sp : (lineCfg m s).sp = s.sp := rfl
@[simp] theorem lineCfg_seq : (lineCfg m s).seq = s.seq := rfl
@[simp] theorem lineCfg_work : (lineCfg m s).work = s.work := rfl
@[simp] theorem lineCfg_pend : (lineCfg m s).pend = s.pend := rfl
@[simp] theorem lineCfg_timer : (lineCfg m s).timer = s.timer := rfl
@[simp] theorem lineCfg_rdata : (lineCfg m s).rdata = s.rdata := rfl
@[simp] theorem lineCfg_inputs : (lineCfg m s).inputs = s.inputs := rfl
@[simp] theorem lineCfg_draws : (lineCfg m s).draws = s.draws := rfl

end

section
variable (s : State) (b : Byte)

@[simp] theorem lineTx_status : (lineTx b s).status = s.status := rfl
@[simp] theorem lineTx_result : (lineTx b s).result = s.result := rfl
@[simp] theorem lineTx_data : (lineTx b s).data = s.data := rfl
@[simp] theorem lineTx_rxdata : (lineTx b s).rxdata = s.rxdata := rfl
@[simp] theorem lineTx_echo : (lineTx b s).echo = s.echo := rfl
@[simp] theorem lineTx_crc : (lineTx b s).crc = s.crc := rfl
@[simp] theorem lineTx_rom : (lineTx b s).rom = s.rom := rfl
@[simp] theorem lineTx_sp : (lineTx b s).sp = s.sp := rfl
@[simp] theorem lineTx_seq : (lineTx b s).seq = s.seq := rfl
@[simp] theorem lineTx_work : (lineTx b s).work = s.work := rfl
@[simp] theorem lineTx_pend : (lineTx b s).pend = .tx b := rfl
@[simp] theorem lineTx_timer : (lineTx b s).timer = s.timer := rfl
@[simp] theorem lineTx_rdata : (lineTx b s).rdata = s.rdata := rfl
@[simp] theorem lineTx_inputs : (lineTx b s).inputs = s.inputs := rfl
@[simp] theorem lineTx_draws : (lineTx b s).draws = s.draws := rfl

end

section
variable (s : State)

@[simp] theorem lineRx_status : (lineRx s).status = s.status := rfl
@[simp] theorem lineRx_result : (lineRx s).result = s.result := rfl
@[simp] theorem lineRx_data : (lineRx s).data = s.data := rfl
@[simp] theorem lineRx_rxdata : (lineRx s).rxdata = s.rxdata := rfl
@[simp] theorem lineRx_echo : (lineRx s).echo = s.echo := rfl
@[simp] theorem lineRx_crc : (lineRx s).crc = s.crc := rfl
@[simp] theorem lineRx_rom : (lineRx s).rom = s.rom := rfl
@[simp] theorem lineRx_sp : (lineRx s).sp = s.sp := rfl
@[simp] theorem lineRx_seq : (lineRx s).seq = s.seq := rfl
@[simp] theorem lineRx_work : (lineRx s).work = s.work := rfl
@[simp] theorem lineRx_pend : (lineRx s).pend = .rx := rfl
@[simp] theorem lineRx_timer : (lineRx s).timer = s.timer := rfl
@[simp] theorem lineRx_rdata : (lineRx s).rdata = s.rdata := rfl
@[simp] theorem lineRx_inputs : (lineRx s).inputs = s.inputs := rfl
@[simp] theorem lineRx_draws : (lineRx s).draws = s.draws := rfl

end

section
variable (s : State)

@[simp] theorem startWait_status : (startWait s).status = s.status := rfl
@[simp] theorem startWait_result : (startWait s).result = s.result := rfl
@[simp] theorem startWait_data : (startWait s).data = s.data := rfl
@[simp] theorem startWait_rxdata : (startWait s).rxdata = s.rxdata := rfl
@[simp] theorem startWait_echo : (startWait s).echo = s.echo := rfl
@[simp] theorem startWait_crc : (startWait s).crc = s.crc := rfl
@[simp] theorem startWait_rom : (startWait s).rom = s.rom := rfl
@[simp] theorem startWait_sp : (startWait s).sp = s.sp := rfl
@[simp] theorem startWait_seq : (startWait s).seq = s.seq := rfl
@[simp] theorem startWait_work : (startWait s).work = s.work := rfl
@[simp] theorem startWait_pend : (startWait s).pend = .wait := rfl
@[simp] theorem startWait_timer : (startWait s).timer = .running := rfl
@[simp] theorem startWait_rdata : (startWait s).rdata = s.rdata := rfl
@[simp] theorem startWait_inputs : (startWait s).inputs = s.inputs := rfl
@[simp] theorem startWait_draws : (startWait s).draws = s.draws := rfl

end

section
variable (s : State)

@[simp] theorem clearPend_status : (clearPend s).status = s.status := rfl
@[simp] theorem clearPend_result : (clearPend s).result = s.result := rfl
@[simp] theorem clearPend_data : (clearPend s).data = s.data := rfl
@[simp] theorem clearPend_rxdata : (clearPend s).rxdata = s.rxdata := rfl
@[simp] theorem clearPend_echo : (clearPend s).echo = s.echo := rfl
@[simp] theorem clearPend_crc : (clearPend s).crc = s.crc := rfl
@[simp] theorem clearPend_rom : (clearPend s).rom = s.rom := rfl
@[simp] theorem clearPend_sp : (clearPend s).sp = s.sp := rfl
@[simp] theorem clearPend_seq : (clearPend s).seq = s.seq := rfl
@[simp] theorem clearPend_work : (clearPend s).work = s.work := rfl
@[simp] theorem clearPend_pend : (clearPend s).pend = .none := rfl
@[simp] theorem clearPend_timer : (clearPend s).timer = s.timer := rfl
@[simp] theorem clearPend_rdata : (clearPend s).rdata = s.rdata := rfl
@[simp] theorem clearPend_inputs : (clearPend s).inputs = s.inputs := rfl
@[simp] theorem clearPend_draws : (clearPend s).draws = s.draws := rfl

end

section
variable (s : State) (c : ResultCode)

@[simp] theorem finish_status : (finish c s).status = s.status := rfl
@[simp] theorem finish_result : (finish c s).result = s.result := rfl
@[simp] theorem finish_data : (finish c s).data = s.data := rfl
@[simp] theorem finish_rxdata : (finish c s).rxdata = s.rxdata := rfl
@[simp] theorem finish_echo : (finish c s).echo = s.echo := rfl
@[simp] theorem finish_crc : (finish c s).crc = s.crc := rfl
@[simp] theorem finish_rom : (finish c s).rom = s.rom := rfl
@[simp] theorem finish_sp : (finish c s).sp = s.sp := rfl
@[simp] theorem finish_seq : (finish c s).seq = .commit := rfl
@[simp] theorem finish_work : (finish c s).work = { s.work with sCode := c } := rfl
@[simp] theorem finish_pend : (finish c s).pend = s.pend := rfl
@[simp] theorem finish_timer : (finish c s).timer = s.timer := rfl
@[simp] theorem finish_rdata : (finish c s).rdata = s.rdata := rfl
@[simp] theorem finish_inputs : (finish c s).inputs = s.inputs := rfl
@[simp] theorem finish_draws : (finish c s).draws = s.draws := rfl

end

section
variable (s : State) (v : Byte)

@[simp] theorem writeCrc_status : (writeCrc v s).status = s.status := rfl
@[simp] theorem writeCrc_result : (writeCrc v s).result = s.result := rfl
@[simp] theorem writeCrc_data : (writeCrc v s).data = s.data := rfl
@[simp] theorem writeCrc_rxdata : (writeCrc v s).rxdata = s.rxdata := rfl
@[simp] theorem writeCrc_echo : (writeCrc v s).echo = s.echo := rfl
@[simp] theorem writeCrc_crc : (writeCrc v s).crc = v := rfl
@[simp] theorem writeCrc_rom : (writeCrc v s).rom = s.rom := rfl
@[simp] theorem writeCrc_sp : (writeCrc v s).sp = s.sp := rfl
@[simp] theorem writeCrc_seq : (writeCrc v s).seq = s.seq := rfl
@[simp] theorem writeCrc_work : (writeCrc v s).work = s.work := rfl
@[simp] theorem writeCrc_pend : (writeCrc v s).pend = s.pend := rfl
@[simp] theorem writeCrc_timer : (writeCrc v s).timer = s.timer := rfl
@[simp] theorem writeCrc_rdata : (writeCrc v s).rdata = s.rdata := rfl
@[simp] theorem writeCrc_inputs : (writeCrc v s).inputs = s.inputs := rfl
@[simp] theorem writeCrc_draws : (writeCrc v s).draws = s.draws := rfl

end

section
variable (s : State) (off : Offset)

@[simp] theorem hostRead_status : (hostRead off s).status = s.status := rfl
@[simp] theorem hostRead_result : (hostRead off s).result = s.result := rfl
@[simp] theorem hostRead_data : (hostRead off s).data = s.data := rfl
@[simp] theorem hostRead_rxdata : (hostRead off s).rxdata = s.rxdata := rfl
@[simp] theorem hostRead_echo : (hostRead off s).echo = s.echo := rfl
@[simp] theorem hostRead_crc : (hostRead off s).crc = s.crc := rfl
@[simp] theorem hostRead_rom : (hostRead off s).rom = s.rom := rfl
@[simp] theorem hostRead_sp : (hostRead off s).sp = s.sp := rfl
@[simp] theorem hostRead_seq : (hostRead off s).seq = s.seq := rfl
@[simp] theorem hostRead_work : (hostRead off s).work = s.work := rfl
@[simp] theorem hostRead_pend : (hostRead off s).pend = s.pend := rfl
@[simp] theorem hostRead_timer : (hostRead off s).timer = s.timer := rfl
@[simp] theorem hostRead_rdata : (hostRead off s).rdata = some (readReg off s) := rfl
@[simp] theorem hostRead_inputs : (hostRead off s).inputs = s.inputs := rfl
@[simp] theorem hostRead_draws : (hostRead off s).draws = s.draws := rfl

end

section
variable (s : State)

@[simp] theorem advance_status : (advance s).status = s.status := rfl
@[simp] theorem advance_result : (advance s).result = s.result := rfl
@[simp] theorem advance_data : (advance s).data = s.data := rfl
@[simp] theorem advance_rxdata : (advance s).rxdata = s.rxdata := rfl
@[simp] theorem advance_echo : (advance s).echo = s.echo := rfl
@[simp] theorem advance_crc : (advance s).crc = s.crc := rfl
@[simp] theorem advance_rom : (advance s).rom = s.rom := rfl
@[simp] theorem advance_sp : (advance s).sp = s.sp := rfl
@[simp] theorem advance_seq : (advance s).seq = s.seq := rfl
@[simp] theorem advance_work : (advance s).work = s.work := rfl
@[simp] theorem advance_pend : (advance s).pend = s.pend := rfl
@[simp] theorem advance_timer : (advance s).timer = s.timer := rfl
@[simp] theorem advance_rdata : (advance s).rdata = s.rdata := rfl
@[simp] theorem advance_inputs : (advance s).inputs = s.inputs.tail := rfl
@[simp] theorem advance_draws : (advance s).draws = s.draws := rfl

end

section
variable (s : State)

@[simp] theorem drawn_status : (drawn s).status = s.status := rfl
@[simp] theorem drawn_result : (drawn s).result = s.result := rfl
@[simp] theorem drawn_data : (drawn s).data = s.data := rfl
@[simp] theorem drawn_rxdata : (drawn s).rxdata = s.rxdata := rfl
@[simp] theorem drawn_echo : (drawn s).echo = s.echo := rfl
@[simp] theorem drawn_crc : (drawn s).crc = s.crc := rfl
@[simp] theorem drawn_rom : (drawn s).rom = s.rom := rfl
@[simp] theorem drawn_sp : (drawn s).sp = s.sp := rfl
@[simp] theorem drawn_seq : (drawn s).seq = s.seq := rfl
@[simp] theorem drawn_work : (drawn s).work = s.work := rfl
@[simp] theorem drawn_pend : (drawn s).pend = s.pend := rfl
@[simp] theorem drawn_timer : (drawn s).timer = s.timer := rfl
@[simp] theorem drawn_rdata : (drawn s).rdata = s.rdata := rfl
@[simp] theorem drawn_inputs : (drawn s).inputs = s.inputs := rfl
@[simp] theorem drawn_draws : (drawn s).draws = s.draws + 1 := rfl

end

section
variable (s : State) (c : ByteCall) (b : Byte)

@[simp] theorem enterByte_status : (enterByte c b s).status = s.status := rfl
@[simp] theorem enterByte_result : (enterByte c b s).result = s.result := rfl
@[simp] theorem enterByte_data : (enterByte c b s).data = s.data := rfl
@[simp] theorem enterByte_rxdata : (enterByte c b s).rxdata = s.rxdata := rfl
@[simp] theorem enterByte_echo : (enterByte c b s).echo = s.echo := rfl
@[simp] theorem enterByte_crc : (enterByte c b s).crc = s.crc := rfl
@[simp] theorem enterByte_rom : (enterByte c b s).rom = s.rom := rfl
@[simp] theorem enterByte_sp : (enterByte c b s).sp = s.sp := rfl
@[simp] theorem enterByte_seq : (enterByte c b s).seq = .txByte c 0 := rfl
@[simp] theorem enterByte_work : (enterByte c b s).work = { s.work with b := b } := rfl
@[simp] theorem enterByte_pend : (enterByte c b s).pend = s.pend := rfl
@[simp] theorem enterByte_timer : (enterByte c b s).timer = s.timer := rfl
@[simp] theorem enterByte_rdata : (enterByte c b s).rdata = s.rdata := rfl
@[simp] theorem enterByte_inputs : (enterByte c b s).inputs = s.inputs := rfl
@[simp] theorem enterByte_draws : (enterByte c b s).draws = s.draws := rfl

end

section
variable (s : State) (q : Seq)

@[simp] theorem start_status : (start q s).status = { s.status with busy := true } := rfl
@[simp] theorem start_result : (start q s).result = s.result := rfl
@[simp] theorem start_data : (start q s).data = s.data := rfl
@[simp] theorem start_rxdata : (start q s).rxdata = s.rxdata := rfl
@[simp] theorem start_echo : (start q s).echo = s.echo := rfl
@[simp] theorem start_crc : (start q s).crc = s.crc := rfl
@[simp] theorem start_rom : (start q s).rom = s.rom := rfl
@[simp] theorem start_sp : (start q s).sp = s.sp := rfl
@[simp] theorem start_seq : (start q s).seq = q := rfl
@[simp] theorem start_work : (start q s).work = s.work := rfl
@[simp] theorem start_pend : (start q s).pend = s.pend := rfl
@[simp] theorem start_timer : (start q s).timer = s.timer := rfl
@[simp] theorem start_rdata : (start q s).rdata = s.rdata := rfl
@[simp] theorem start_inputs : (start q s).inputs = s.inputs := rfl
@[simp] theorem start_draws : (start q s).draws = s.draws := rfl

end

end Sys2Proof.Machine
end

