-- ==== Sys2Proof/Laws/Ops.lean ====
section
/-! SUPPORT. What each shared operation can do, said once: the register window (R19 to R39), host accesses
(R62), acceptance (R46), a raise (R201), the comparison of owWrite (R128). -/

namespace Sys2Proof.Machine

/-! ## The register window -/

section
variable (s : State)

@[simp] theorem readReg_cmd : readReg 0x00#5 s = 0x00#8 := rfl
@[simp] theorem readReg_status : readReg 0x01#5 s = statusByte s.status := rfl
@[simp] theorem readReg_result : readReg 0x02#5 s = s.result := rfl
@[simp] theorem readReg_data : readReg 0x03#5 s = s.data := rfl
@[simp] theorem readReg_rxdata : readReg 0x04#5 s = s.rxdata := rfl
@[simp] theorem readReg_echo : readReg 0x05#5 s = s.echo := rfl
@[simp] theorem readReg_crc : readReg 0x06#5 s = s.crc := rfl
@[simp] theorem readReg_crcin : readReg 0x07#5 s = 0x00#8 := rfl

theorem readReg_rom (k : Fin 8) : readReg (Reg.rom k).offset s = s.rom[k] := by
  fin_cases k <;> rfl

theorem readReg_sp (k : Fin 9) : readReg (Reg.sp k).offset s = s.sp[k] := by
  fin_cases k <;> rfl

theorem readReg_reserved {off : Offset} (h : 0x19 ≤ off.toNat) : readReg off s = 0x00#8 := by
  have hne : ∀ k : Offset, k.toNat < 0x19 → off ≠ k := by rintro k hk rfl; omega
  unfold readReg
  rw [if_neg (hne _ (by decide)), if_neg (hne _ (by decide)), if_neg (hne _ (by decide)),
    if_neg (hne _ (by decide)), if_neg (hne _ (by decide)), if_neg (hne _ (by decide)),
    dif_neg (by omega), dif_neg (by omega)]

end

/-- Two states with the same visible registers read the same at every offset. -/
theorem readReg_congr {s t : State} (off : Offset) (hst : t.status = s.status)
    (hre : t.result = s.result) (hda : t.data = s.data) (hrx : t.rxdata = s.rxdata)
    (hec : t.echo = s.echo) (hcr : t.crc = s.crc) (hro : t.rom = s.rom) (hsp : t.sp = s.sp) :
    readReg off t = readReg off s := by
  simp only [readReg, hst, hre, hda, hrx, hec, hcr, hro, hsp]

/-- The same, but for STATUS itself: what the read of any other offset depends on. -/
theorem readReg_congr_of_ne_status {s t : State} {off : Offset} (hoff : off ≠ 0x01#5)
    (hre : t.result = s.result) (hda : t.data = s.data) (hrx : t.rxdata = s.rxdata)
    (hec : t.echo = s.echo) (hcr : t.crc = s.crc) (hro : t.rom = s.rom) (hsp : t.sp = s.sp) :
    readReg off t = readReg off s := by
  simp only [readReg, hoff, if_false, hre, hda, hrx, hec, hcr, hro, hsp]

/-! ## Host accesses -/

theorem accessCode_write {off : Nat} (h : off < 32) (v : Byte) :
    accessCode (.write off [v]) = .ok (.write (BitVec.ofNat 5 off) v) := by
  simp [accessCode, h]

theorem accessCode_read {off : Nat} (h : off < 32) :
    accessCode (.read off 1) = .ok (.read (BitVec.ofNat 5 off)) := by
  simp [accessCode, h]

@[simp] theorem Off.toNat_reg (r : Reg) : (Off.reg r).toNat = r.offset.toNat := rfl
@[simp] theorem Off.toNat_number (n : Nat) : (Off.number n).toNat = n := rfl

/-- A register name never leaves the window (R21, R62). -/
theorem Off.toNat_reg_lt (r : Reg) : (Off.reg r).toNat < 32 := r.offset.isLt

/-- A host access is a code exactly when it is one byte inside the window (R62). -/
theorem accessCode_cases (a : Access) :
    (∃ off v, a = .write off [v] ∧ off < 32 ∧ accessCode a = .ok (.write (BitVec.ofNat 5 off) v)) ∨
    (∃ off, a = .read off 1 ∧ off < 32 ∧ accessCode a = .ok (.read (BitVec.ofNat 5 off))) ∨
    (∃ r, accessCode a = .error r) := by
  cases a with
  | write off bytes =>
    by_cases h : off < 32
    · match bytes with
      | [v] => exact .inl ⟨off, v, rfl, h, accessCode_write h v⟩
      | [] => exact .inr (.inr ⟨_, by simp [accessCode, h]; rfl⟩)
      | _ :: _ :: _ => exact .inr (.inr ⟨_, by simp [accessCode, h]; rfl⟩)
    · exact .inr (.inr ⟨_, by simp [accessCode, h]; rfl⟩)
  | read off n =>
    by_cases h : off < 32
    · by_cases hn : n = 1
      · subst hn; exact .inr (.inl ⟨off, rfl, h, accessCode_read h⟩)
      · exact .inr (.inr ⟨_, by simp [accessCode, h, hn]; rfl⟩)
    · exact .inr (.inr ⟨_, by simp [accessCode, h]; rfl⟩)

/-! ## Acceptance, raise, comparison -/

theorem accept_busy {s : State} (h : s.status.busy = true) (opc : Nibble) (body : State → State) :
    accept opc body s = .next { s with status.cmderr := true } := by
  simp [accept, h]

theorem accept_idle {s : State} (h : s.status.busy = false) (opc : Nibble) (body : State → State) :
    accept opc body s = .next (body (latch opc s)) := by
  simp [accept, h]

/-- A raise inside busReset's try goes to its finally, any other to the commit; only the position and
`s_code` change (R201). -/
theorem raiseFail_cases (c : ResultCode) (s : State) :
    (∃ r, (s.seq = .txPulse r ∨ s.seq = .rxEcho r) ∧
      raiseFail c s = { s with seq := .cfgNormal r true, work.sCode := c }) ∨
    ((∀ r, s.seq ≠ .txPulse r ∧ s.seq ≠ .rxEcho r) ∧ raiseFail c s = finish c s) := by
  unfold raiseFail
  split
  · next r h => exact .inl ⟨r, .inl h, rfl⟩
  · next r h => exact .inl ⟨r, .inr h, rfl⟩
  · next h1 h2 => exact .inr ⟨fun r => ⟨h1 r, h2 r⟩, rfl⟩

theorem raiseFail_outside_try {c : ResultCode} {s : State}
    (h : ∀ r, s.seq ≠ .txPulse r ∧ s.seq ≠ .rxEcho r) : raiseFail c s = finish c s := by
  rcases raiseFail_cases c s with ⟨r, hr | hr, _⟩ | ⟨_, e⟩
  · exact absurd hr (h r).1
  · exact absurd hr (h r).2
  · exact e

theorem verify_eq {r : Byte} {s : State} (h : r = s.work.b) (go : State → State) :
    verify r go s = go s := by
  simp [verify, h]

theorem verify_ne {r : Byte} {s : State} (h : r ≠ s.work.b) (go : State → State) :
    verify r go s = raiseFail .nodevWrite s := by
  simp [verify, h]

/-! ## Commit -/

theorem errOf_eq_false_iff (c : ResultCode) : errOf c = false ↔ c = .ok := by
  cases c <;> decide

theorem codeByte_eq_zero_iff (c : ResultCode) : codeByte c = 0x00#8 ↔ c = .ok := by
  cases c <;> decide

theorem errOf_iff (c : ResultCode) : errOf c = true ↔ codeByte c ≠ 0x00#8 := by
  simp [errOf]

theorem commitsRom_iff (o : Nibble) (c : ResultCode) : commitsRom o c = true ↔ o = 0x6#4 ∧ c = .ok := by
  simp [commitsRom, errOf_eq_false_iff]

theorem commitsTemp_iff (o : Nibble) (c : ResultCode) :
    commitsTemp o c = true ↔ o = 0x7#4 ∧ c = .ok := by
  simp [commitsTemp, errOf_eq_false_iff]

theorem isExchange_iff (o : Nibble) :
    isExchange o = true ↔ o = 0x2#4 ∨ o = 0x3#4 ∨ o = 0x4#4 ∨ o = 0x5#4 := by
  simp [isExchange, or_assoc]

/-- A command that ends in its acceptance step commits no buffer (R46). -/
theorem no_buffer_commit {o : Nibble} {c : ResultCode} (h : c = .ok ∧ o = 0x0#4 ∨ c = .illCmd) :
    commitsRom o c = false ∧ commitsTemp o c = false := by
  rcases h with ⟨rfl, rfl⟩ | rfl
  · decide
  · simp [commitsRom, commitsTemp, errOf, codeByte]

end Sys2Proof.Machine
end

