-- ==== Sys2Proof/Laws/Step.lean ====
section
/-! SUPPORT. What one step does, by the head of the script and the sequencer's position: one lemma per case,
so that no later proof unfolds `step`. -/

namespace Sys2Proof.Machine

/-- It is the block's own turn: the script is empty or its head is a tick. -/
def Turn (s : State) : Prop := s.inputs = [] ∨ ∃ rest, s.inputs = .tick :: rest

/-- What a step does with a fetched code. -/
def runCode (c : Code) (s : State) : Host.Outcome State Fault Refusal :=
  match decode c with
  | .ok i => exec i s
  | .error _ => .next (plainAccess c s)

theorem fetch_turn {s : State} (h : Turn s) :
    fetch s = if s.pend = .none then sequencerCode s else none := by
  rcases h with h | ⟨rest, h⟩ <;> simp [fetch, h]

theorem step_of_fetch {s : State} {c : Code} (h : fetch s = some c) :
    step s = runCode c (advance s) := by
  cases hd : decode c <;> simp [step, runCode, h, hd]

theorem step_of_fetch_none {s : State} (h : fetch s = none) : step s = agentStep s := by
  unfold step
  rw [h]

theorem agentStep_turn {s : State} (h : Turn s) : agentStep s = tick (advance s) := by
  rcases h with h | ⟨rest, h⟩
  · have : advance s = s := by cases s; cases h; rfl
    rw [this]; simp [agentStep, h]
  · simp [agentStep, h, eventStep, advance]

/-! ## The script's events -/

section
variable {s : State} {rest : List Input}

theorem step_host_ok {a : Access} {c : Code} (h : s.inputs = .host a :: rest)
    (hc : accessCode a = .ok c) : step s = runCode c { s with inputs := rest } := by
  rw [step_of_fetch (c := c) (by simp [fetch, h, hc, Except.toOption])]
  simp [advance, h]

theorem step_host_error {a : Access} {r : Refusal} (h : s.inputs = .host a :: rest)
    (hc : accessCode a = .error r) : step s = .refused r := by
  rw [step_of_fetch_none (by simp [fetch, h, hc, Except.toOption])]
  simp [agentStep, h, eventStep, hc]

theorem step_poll (h : s.inputs = .poll :: rest) :
    step s = .next (pollStep rest { s with inputs := rest }) := by
  rw [step_of_fetch_none (by simp [fetch, h])]
  simp [agentStep, h, eventStep]

theorem step_blockReset (h : s.inputs = .blockReset :: rest) :
    step s = .next (blockReset { s with inputs := rest }) := by
  rw [step_of_fetch_none (by simp [fetch, h])]
  simp [agentStep, h, eventStep]

theorem step_tx {a : TxAnswer} {b : Byte} (h : s.inputs = .tx a :: rest) (hp : s.pend = .tx b) :
    step s = answerTx a { s with inputs := rest } := by
  rw [step_of_fetch_none (by simp [fetch, h])]
  simp [agentStep, h, eventStep, hp]

theorem step_tx_ignored {a : TxAnswer} (h : s.inputs = .tx a :: rest) (hp : ∀ b, s.pend ≠ .tx b) :
    step s = .next { s with inputs := rest } := by
  rw [step_of_fetch_none (by simp [fetch, h])]
  cases hs : s.pend <;> simp_all [agentStep, eventStep]

theorem step_rx {a : RxAnswer} (h : s.inputs = .rx a :: rest) (hp : s.pend = .rx) :
    step s = answerRx a { s with inputs := rest } := by
  rw [step_of_fetch_none (by simp [fetch, h])]
  simp [agentStep, h, eventStep, hp]

theorem step_rx_ignored {a : RxAnswer} (h : s.inputs = .rx a :: rest) (hp : s.pend ≠ .rx) :
    step s = .next { s with inputs := rest } := by
  rw [step_of_fetch_none (by simp [fetch, h])]
  cases hs : s.pend <;> simp_all [agentStep, eventStep]

theorem step_timer {ms : Nat} (h : s.inputs = .timer ms :: rest) (hp : s.pend = .wait) :
    step s = if tConvMs ≤ ms then timerReport { s with inputs := rest }
      else .next { s with inputs := rest } := by
  rw [step_of_fetch_none (by simp [fetch, h])]
  simp [agentStep, h, eventStep, hp]

theorem step_timer_ignored {ms : Nat} (h : s.inputs = .timer ms :: rest) (hp : s.pend ≠ .wait) :
    step s = .next { s with inputs := rest } := by
  rw [step_of_fetch_none (by simp [fetch, h])]
  cases hs : s.pend <;> simp_all [agentStep, eventStep]

end

/-! ## The block's own turn -/

section
variable {s : State}

theorem step_turn_pending (h : Turn s) (hp : s.pend ≠ .none) : step s = tick (advance s) := by
  rw [step_of_fetch_none (by simp [fetch_turn h, hp]), agentStep_turn h]

theorem step_turn_silent (h : Turn s) (hp : s.pend = .none) (hc : sequencerCode s = none) :
    step s = .next (sequencerStep (advance s)) := by
  rw [step_of_fetch_none (by simp [fetch_turn h, hp, hc]), agentStep_turn h]
  simp [tick, hp]

theorem step_turn_code (h : Turn s) (hp : s.pend = .none) {c : Code} (hc : sequencerCode s = some c) :
    step s = runCode c (advance s) :=
  step_of_fetch (by simp [fetch_turn h, hp, hc])

theorem decode_slotFrame (bit : Bool) :
    decode (.frame (slotFrame bit)) = .ok (if bit then .busSlot1 else .busSlot0) := by
  cases bit <;> rfl

theorem runCode_slotFrame (bit : Bool) (s : State) :
    runCode (.frame (slotFrame bit)) s = .next (lineTx (slotFrame bit) s) := by
  cases bit <;> rfl

theorem runCode_resetFrame (s : State) :
    runCode (.frame resetFrame) s = .next (lineTx resetFrame s) := rfl

theorem runCode_command {c : ByteCall} {b : Byte} (h : c.command = some b) (s : State) :
    runCode (.wire b) s = .next (beginOwWrite b s) := by
  cases c <;> simp [ByteCall.command] at h <;> subst h <;> rfl

theorem step_turn_txPulse (h : Turn s) (hp : s.pend = .none) {c : ResetCall}
    (hq : s.seq = .txPulse c) : step s = .next (lineTx resetFrame (advance s)) := by
  rw [step_turn_code h hp (c := .frame resetFrame) (by simp [sequencerCode, hq, Seq.frame]),
    runCode_resetFrame]

theorem step_turn_txBit (h : Turn s) (hp : s.pend = .none) (hq : s.seq = .txBit) :
    step s = .next (lineTx (slotFrame (wbitOperand s.work.d)) (advance s)) := by
  rw [step_turn_code h hp (c := .frame (slotFrame (wbitOperand s.work.d)))
    (by simp [sequencerCode, hq, Seq.frame]), runCode_slotFrame]

theorem step_turn_command (h : Turn s) (hp : s.pend = .none) {c : ByteCall} {b : Byte}
    (hq : s.seq = .txByte c 0) (hc : c.command = some b) :
    step s = .next (beginOwWrite b (advance s)) := by
  rw [step_turn_code h hp (c := .wire b) (by simp [sequencerCode, hq, hc]), runCode_command hc]

theorem step_turn_txByte (h : Turn s) (hp : s.pend = .none) {c : ByteCall} {i : Fin 8}
    (hq : s.seq = .txByte c i) (hi : i ≠ 0 ∨ c.command = none) :
    step s = .next (lineTx (slotFrame (s.work.b.getLsbD i.val)) (advance s)) := by
  rw [step_turn_code h hp (c := .frame (slotFrame (s.work.b.getLsbD i.val))) ?_, runCode_slotFrame]
  unfold sequencerCode
  rw [hq]
  split
  · next c' h' =>
    cases h'
    rcases hi with hi | hi
    · exact absurd rfl hi
    · simp [hi, Seq.frame]
  · simp [Seq.frame]

end

/-! ## Instructions -/

/-- Every instruction completes, in every state and on every operand. -/
theorem exec_next (i : Instr) (s : State) : ∃ t, exec i s = .next t := by
  cases i <;> exact ⟨_, rfl⟩

theorem runCode_next (c : Code) (s : State) : ∃ t, runCode c s = .next t := by
  unfold runCode
  split
  · exact exec_next _ _
  · exact ⟨_, rfl⟩

theorem runCode_read (off : Offset) (s : State) : runCode (.read off) s = .next (hostRead off s) := by
  by_cases h : off = 0x06#5
  · subst h; rfl
  · simp [runCode, decode, h, plainAccess]

/-- The five registers a host write can reach; any other host write does nothing (R19, R20, R61). -/
theorem runCode_write_cases (off : Offset) (v : Byte) (s : State) :
    (off = 0x00#5 ∧ runCode (.write off v) s = exec (decodeCmd v) s) ∨
    (off = 0x03#5 ∧ runCode (.write off v) s = .next { s with data := v }) ∨
    (off = 0x06#5 ∧ runCode (.write off v) s = .next { s with crc := v }) ∨
    (off = 0x07#5 ∧ runCode (.write off v) s = .next { s with crc := crc8Byte s.crc v }) ∨
    (off ≠ 0x00#5 ∧ off ≠ 0x03#5 ∧ off ≠ 0x06#5 ∧ off ≠ 0x07#5 ∧
      runCode (.write off v) s = .next s) := by
  by_cases h0 : off = 0x00#5
  · subst h0; exact .inl ⟨rfl, rfl⟩
  by_cases h3 : off = 0x03#5
  · subst h3; exact .inr (.inl ⟨rfl, rfl⟩)
  by_cases h6 : off = 0x06#5
  · subst h6; exact .inr (.inr (.inl ⟨rfl, rfl⟩))
  by_cases h7 : off = 0x07#5
  · subst h7; exact .inr (.inr (.inr (.inl ⟨rfl, rfl⟩)))
  exact .inr (.inr (.inr (.inr ⟨h0, h3, h6, h7, by
    simp [runCode, decode, h0, h3, h6, h7, plainAccess, plainWrite]⟩)))

theorem decodeCmd_mem (v : Byte) : decodeCmd v ∈ [Instr.nop, .reset, .wbit, .xbyte, .write, .read,
    .readrom, .readtemp, .illcmdOpc v, .illcmdRsv4 v, .illcmdRsv5 v, .illcmdRsv6 v,
    .illcmdRsv7 v] := by
  revert v; decide

/-- What a write of CMD can lead to (R46): rejected, committed at once, or started. -/
inductive CmdWrite (s : State) : State → Prop
  | rejected (h : s.status.busy = true) : CmdWrite s { s with status.cmderr := true }
  | ended (h : s.status.busy = false) (opc : Nibble) (c : ResultCode) (hc : c = .ok ∧ opc = 0x0#4 ∨ c = .illCmd) :
      CmdWrite s (commit c (latch opc s))
  | reset (h : s.status.busy = false) : CmdWrite s (start (.cfgReset .cmd) (latch 0x1#4 s))
  | bit (h : s.status.busy = false) : CmdWrite s (start .txBit (latch 0x2#4 s))
  | byte (h : s.status.busy = false) (c : ByteCall) (hc : c = .xbyte ∨ c = .write ∨ c = .read) :
      CmdWrite s (start (.txByte c 0) (enterByte c (c.operand s.data) (latch c.opcode s)))
  | rom (h : s.status.busy = false) :
      CmdWrite s (start (.cfgReset .rom) { latch 0x6#4 s with status.romv := false })
  | temp (h : s.status.busy = false) :
      CmdWrite s (start (.cfgReset .temp1) { latch 0x7#4 s with status.tempv := false })

theorem acceptIllegal_cases {v : Byte} {s t : State} (h : acceptIllegal v s = .next t) :
    CmdWrite s t := by
  cases hb : s.status.busy
  · rw [acceptIllegal, accept_idle hb] at h
    cases h; exact .ended hb _ _ (.inr rfl)
  · rw [acceptIllegal, accept_busy hb] at h
    cases h; exact .rejected hb

/-- Every byte written to CMD does one of those. -/
theorem exec_decodeCmd_cases {v : Byte} {s t : State} (h : exec (decodeCmd v) s = .next t) :
    CmdWrite s t := by
  have hv := decodeCmd_mem v
  generalize decodeCmd v = i at h hv
  simp only [List.mem_cons, List.not_mem_nil, or_false] at hv
  rcases hv with rfl | rfl | rfl | rfl | rfl | rfl | rfl | rfl | rfl | rfl | rfl | rfl | rfl
  case inl =>
    cases hb : s.status.busy
    · simp only [exec, execNop, accept_idle hb] at h
      cases h; exact .ended hb _ _ (.inl ⟨rfl, rfl⟩)
    · simp only [exec, execNop, accept_busy hb] at h
      cases h; exact .rejected hb
  iterate 7
    on_goal 1 =>
      cases hb : s.status.busy
      · simp only [exec, execReset, execWbit, execXbyte, execWrite, execRead, execReadrom, execReadtemp,
          accept_idle hb] at h
        cases h
        first
          | exact .reset hb | exact .bit hb | exact .rom hb | exact .temp hb
          | exact .byte hb .xbyte (.inl rfl) | exact .byte hb .write (.inr (.inl rfl))
          | exact .byte hb .read (.inr (.inr rfl))
      · simp only [exec, execReset, execWbit, execXbyte, execWrite, execRead, execReadrom, execReadtemp,
          accept_busy hb] at h
        cases h; exact .rejected hb
  all_goals exact acceptIllegal_cases h

/-! ## Everything one step can do -/

/-- What a step from `s` can do, one constructor per kind; `l` is the script afterwards. -/
inductive StepCase (s : State) : State → Prop
  /-- A write of CMD. -/
  | cmd (v : Byte) (l : List Input) (t : State) (h : s.inputs = .host (.write 0 [v]) :: l)
      (ht : CmdWrite { s with inputs := l } t) : StepCase s t
  /-- A write of DATA. -/
  | data (v : Byte) (l : List Input) (h : s.inputs = .host (.write 3 [v]) :: l) :
      StepCase s { s with inputs := l, data := v }
  /-- A write of CRC. -/
  | crc (v : Byte) (l : List Input) (h : s.inputs = .host (.write 6 [v]) :: l) :
      StepCase s { s with inputs := l, crc := v }
  /-- A write of CRCIN. -/
  | crcin (v : Byte) (l : List Input) (h : s.inputs = .host (.write 7 [v]) :: l) :
      StepCase s { s with inputs := l, crc := crc8Byte s.crc v }
  /-- A host read, by itself or of a poll. -/
  | read (off : Offset) (l : List Input)
      (h : (∃ a rest, s.inputs = .host a :: rest) ∨ ∃ rest, s.inputs = .poll :: rest) :
      StepCase s { s with inputs := l, rdata := some (readReg off s) }
  /-- Block reset. -/
  | blockReset (l : List Input) (h : s.inputs = .blockReset :: l) :
      StepCase s (blockReset { s with inputs := l })
  /-- Nothing but the script moves: a host write without effect, an answer nothing waits for, a report
  of the timer that is too early or that nothing waits for. -/
  | quiet (l : List Input) (h : ∃ i, s.inputs = i :: l) (hi : ∀ l', s.inputs ≠ .blockReset :: l')
      (ht : ¬ Turn s) : StepCase s { s with inputs := l }
  /-- A frame is issued. -/
  | frame (b : Byte) (l : List Input) (ht : Turn s) (hp : s.pend = .none) (h : s.seq.frame s.work = some b)
      (hc : ∀ c, s.seq = .txByte c 0 → c.command = none) : StepCase s { s with inputs := l, pend := .tx b }
  /-- A command byte's first frame is issued. -/
  | command (c : ByteCall) (b : Byte) (l : List Input) (ht : Turn s) (hp : s.pend = .none)
      (h : s.seq = .txByte c 0) (hc : c.command = some b) :
      StepCase s { s with inputs := l, work.b := b, pend := .tx (slotFrame (b.getLsbD 0)) }
  /-- Another step of the sequencer. -/
  | seq (l : List Input) (ht : Turn s) (hp : s.pend = .none) (h : s.seq.frame s.work = none) :
      StepCase s (sequencerStep { s with inputs := l })
  /-- A frame is taken. -/
  | taken (b : Byte) (l : List Input) (n : Nat) (hp : s.pend = .tx b)
      (h : (s.seq.frame s.work).isSome = true) :
      StepCase s (txDone { s with inputs := l, draws := n, pend := .none })
  /-- A frame is received. -/
  | received (v : Byte) (l : List Input) (n : Nat) (hp : s.pend = .rx) (h : s.seq.receives = true) :
      StepCase s (rxDone v { s with inputs := l, draws := n, pend := .none })
  /-- A request fails. -/
  | failed (c : ResultCode) (l : List Input) (n : Nat) (hc : c = .timeout ∨ c = .ioErr)
      (hp : (∃ b, s.pend = .tx b) ∧ (s.seq.frame s.work).isSome = true ∨
        s.pend = .rx ∧ s.seq.receives = true) :
      StepCase s (raiseFail c { s with inputs := l, draws := n, pend := .none })
  /-- The Wait ends. -/
  | waited (l : List Input) (hp : s.pend = .wait) (h : s.seq = .wait) :
      StepCase s { s with inputs := l, pend := .none, timer := .stopped, seq := .cfgReset .temp2 }

theorem answerTx_cases {a : TxAnswer} {s u t : State} {b : Byte} {l : List Input} {n : Nat}
    (hu : u = { s with inputs := l, draws := n }) (hp : s.pend = .tx b) (h : answerTx a u = .next t) :
    StepCase s t := by
  subst hu
  unfold answerTx at h
  split at h
  · next hs =>
    cases a <;> cases h
    · exact .taken b l n hp hs
    · exact .failed _ l n (.inl rfl) (.inl ⟨⟨b, hp⟩, hs⟩)
    · exact .failed _ l n (.inr rfl) (.inl ⟨⟨b, hp⟩, hs⟩)
  · cases h

theorem answerRx_cases {a : RxAnswer} {s u t : State} {l : List Input} {n : Nat}
    (hu : u = { s with inputs := l, draws := n }) (hp : s.pend = .rx) (h : answerRx a u = .next t) :
    StepCase s t := by
  subst hu
  unfold answerRx at h
  split at h
  · next hs =>
    cases a <;> cases h
    · exact .received _ l n hp hs
    · exact .failed _ l n (.inl rfl) (.inr ⟨hp, hs⟩)
    · exact .failed _ l n (.inr rfl) (.inr ⟨hp, hs⟩)
  · cases h

theorem timerReport_cases {s t : State} {l : List Input} (hp : s.pend = .wait)
    (h : timerReport { s with inputs := l } = .next t) : StepCase s t := by
  unfold timerReport at h
  split at h
  · next hs => cases h; exact .waited l hp hs
  · cases h

/-- A step on the block's own turn. -/
theorem step_turn_cases {s t : State} (ht : Turn s) (h : step s = .next t) : StepCase s t := by
  have hadv : advance s = { s with inputs := s.inputs.tail } := rfl
  cases hp : s.pend with
  | none =>
    cases hf : s.seq.frame s.work with
    | none =>
      rw [step_turn_silent ht hp (by
        unfold sequencerCode; cases hq : s.seq <;> simp_all [Seq.frame])] at h
      cases h; exact .seq _ ht hp hf
    | some b =>
      by_cases hc : ∃ c d, s.seq = .txByte c 0 ∧ c.command = some d
      · obtain ⟨c, d, hq, hc⟩ := hc
        rw [step_turn_command ht hp hq hc] at h
        cases h; exact .command c d _ ht hp hq hc
      · have hn : ∀ c, s.seq = .txByte c 0 → c.command = none := fun c hq => by
          cases hd : c.command with
          | none => rfl
          | some d => exact absurd ⟨c, d, hq, hd⟩ hc
        have hcode : step s = .next { advance s with pend := .tx b } := by
          cases hq : s.seq <;> simp only [hq, Seq.frame, Option.some.injEq, reduceCtorEq] at hf
          · rw [step_turn_txPulse ht hp hq, hf]; rfl
          · rw [step_turn_txBit ht hp hq, hf]; rfl
          · next c i =>
            rw [step_turn_txByte ht hp hq (by
              by_cases hi : i = 0
              · subst hi; exact .inr (hn c hq)
              · exact .inl hi), hf]; rfl
        rw [hcode] at h; cases h; exact .frame b _ ht hp hf hn
  | tx b =>
    rw [step_turn_pending ht (by simp [hp]), tick, advance] at h
    simp only [hp] at h
    exact answerTx_cases (n := s.draws + 1) rfl hp h
  | rx =>
    rw [step_turn_pending ht (by simp [hp]), tick, advance] at h
    simp only [hp] at h
    exact answerRx_cases (n := s.draws + 1) rfl hp h
  | wait =>
    rw [step_turn_pending ht (by simp [hp]), tick, advance] at h
    simp only [hp] at h
    exact timerReport_cases hp h

/-- Everything one step can do: the provers' one way into `step`. -/
theorem step_cases {s t : State} (h : step s = .next t) : StepCase s t := by
  cases hin : s.inputs with
  | nil => exact step_turn_cases (.inl hin) h
  | cons i rest =>
    have hquiet : i ≠ .tick → i ≠ .blockReset → t = { s with inputs := rest } →
        StepCase s t := by
      rintro hi hb rfl
      refine .quiet rest ⟨i, hin⟩ (fun l' hl => hb ?_) ?_
      · rw [hin] at hl; cases hl; rfl
      · rintro (hl | ⟨l', hl⟩) <;> rw [hin] at hl <;> cases hl
        exact hi rfl
    cases i with
    | tick => exact step_turn_cases (.inr ⟨rest, hin⟩) h
    | host a =>
      rcases accessCode_cases a with ⟨o, v, rfl, ho, hc⟩ | ⟨o, rfl, ho, hc⟩ | ⟨r, hr⟩
      · rw [step_host_ok hin hc] at h
        have hoff : ∀ k, k < 32 → BitVec.ofNat 5 o = BitVec.ofNat 5 k → o = k := fun k hk e => by
          have := congrArg BitVec.toNat e
          simp only [BitVec.toNat_ofNat] at this
          omega
        rcases runCode_write_cases (BitVec.ofNat 5 o) v { s with inputs := rest } with
          ⟨ho, e⟩ | ⟨ho, e⟩ | ⟨ho, e⟩ | ⟨ho, e⟩ | ⟨-, -, -, -, e⟩ <;> rw [e] at h
        · rw [hoff 0 (by omega) ho] at hin
          exact .cmd v rest t hin (exec_decodeCmd_cases h)
        · rw [hoff 3 (by omega) ho] at hin
          cases h; exact .data v rest hin
        · rw [hoff 6 (by omega) ho] at hin
          cases h; exact .crc v rest hin
        · rw [hoff 7 (by omega) ho] at hin
          cases h; exact .crcin v rest hin
        · cases h; exact hquiet (by simp) (by simp) rfl
      · rw [step_host_ok hin hc, runCode_read] at h
        cases h; exact .read _ rest (.inl ⟨_, _, hin⟩)
      · rw [step_host_error hin hr] at h; cases h
    | poll =>
      rw [step_poll hin] at h
      cases h; exact .read 0x01#5 _ (.inr ⟨_, hin⟩)
    | tx a =>
      by_cases hp : ∃ b, s.pend = .tx b
      · obtain ⟨b, hp⟩ := hp
        rw [step_tx hin hp] at h
        exact answerTx_cases (n := s.draws) rfl hp h
      · rw [step_tx_ignored hin (fun b hb => hp ⟨b, hb⟩)] at h
        cases h; exact hquiet (by simp) (by simp) rfl
    | rx a =>
      by_cases hp : s.pend = .rx
      · rw [step_rx hin hp] at h
        exact answerRx_cases (n := s.draws) rfl hp h
      · rw [step_rx_ignored hin hp] at h
        cases h; exact hquiet (by simp) (by simp) rfl
    | timer ms =>
      by_cases hp : s.pend = .wait
      · rw [step_timer hin hp] at h
        split at h
        · exact timerReport_cases hp h
        · cases h; exact hquiet (by simp) (by simp) rfl
      · rw [step_timer_ignored hin hp] at h
        cases h; exact hquiet (by simp) (by simp) rfl
    | blockReset =>
      rw [step_blockReset hin] at h
      cases h; exact .blockReset rest hin

end Sys2Proof.Machine
end

