-- ==== Sys2Proof/Laws/Keeps.lean ====
section
/-! SUPPORT. What the sequencer's own steps leave alone: every register the host can read, the
latched opcode and operand, and the model's own fields (R45: results appear at the commit). Only LineCfg
writes LCFG (R31). -/

namespace Sys2Proof.Machine

/-- `t` has the visible registers of `s`, its latched command, and the model's own fields. -/
structure Keeps (s t : State) : Prop where
  status : t.status = s.status
  result : t.result = s.result
  data : t.data = s.data
  rxdata : t.rxdata = s.rxdata
  echo : t.echo = s.echo
  crc : t.crc = s.crc
  rom : t.rom = s.rom
  sp : t.sp = s.sp
  op : t.work.op = s.work.op
  d : t.work.d = s.work.d
  rdata : t.rdata = s.rdata
  inputs : t.inputs = s.inputs
  draws : t.draws = s.draws

theorem Keeps.refl (s : State) : Keeps s s := by constructor <;> rfl

theorem Keeps.trans {s t u : State} (h : Keeps s t) (k : Keeps t u) : Keeps s u :=
  ⟨k.status.trans h.status, k.result.trans h.result, k.data.trans h.data, k.rxdata.trans h.rxdata,
    k.echo.trans h.echo, k.crc.trans h.crc, k.rom.trans h.rom, k.sp.trans h.sp, k.op.trans h.op,
    k.d.trans h.d, k.rdata.trans h.rdata, k.inputs.trans h.inputs, k.draws.trans h.draws⟩

theorem keeps_goto (q : Seq) (s : State) : Keeps s (goto q s) := by constructor <;> rfl

theorem keeps_finish (c : ResultCode) (s : State) : Keeps s (finish c s) := by constructor <;> rfl

theorem keeps_raiseFail (c : ResultCode) (s : State) : Keeps s (raiseFail c s) := by
  rcases raiseFail_cases c s with ⟨r, _, h⟩ | ⟨_, h⟩ <;> rw [h] <;> constructor <;> rfl

theorem keeps_enterByte (c : ByteCall) (b : Byte) (s : State) : Keeps s (enterByte c b s) := by
  constructor <;> rfl

theorem keeps_verify (r : Byte) {go : State → State} (s : State) (h : Keeps s (go s)) :
    Keeps s (verify r go s) := by
  unfold verify
  split
  · exact h
  · exact keeps_raiseFail _ s

theorem keeps_romByteDone (k : Fin 8) (r : Byte) (s : State) : Keeps s (romByteDone k r s) := by
  unfold romByteDone romCheck
  refine Keeps.trans (t := { s with work := { s.work with sRom := s.work.sRom.set k r } })
    (by constructor <;> rfl) ?_
  dsimp only
  split
  · split
    · exact keeps_finish _ _
    · exact keeps_raiseFail _ _
  · exact keeps_enterByte _ _ _

theorem keeps_tempByteDone (k : Fin 9) (r : Byte) (s : State) : Keeps s (tempByteDone k r s) := by
  unfold tempByteDone tempCheck
  refine Keeps.trans (t := { s with work := { s.work with sSp := s.work.sSp.set k r } })
    (by constructor <;> rfl) ?_
  dsimp only
  split
  · repeat' split
    all_goals first | exact keeps_finish _ _ | exact keeps_raiseFail _ _
  · exact keeps_enterByte _ _ _

theorem keeps_byteDone (c : ByteCall) (r : Byte) (s : State) : Keeps s (byteDone c r s) := by
  have hw : Keeps s { s with work := { s.work with sRx := r, sRxv := true } } := by constructor <;> rfl
  cases c with
  | xbyte => exact hw.trans (keeps_finish _ _)
  | read => exact hw.trans (keeps_finish _ _)
  | write =>
    unfold byteDone
    dsimp only
    split
    · exact hw.trans (keeps_finish _ _)
    · exact hw.trans (keeps_raiseFail _ _)
  | romCommand => exact keeps_verify _ _ (keeps_enterByte _ _ _)
  | tempSkip1 => exact keeps_verify _ _ (keeps_goto _ _)
  | tempConvert => exact keeps_verify _ _ (keeps_goto _ _)
  | tempSkip2 => exact keeps_verify _ _ (keeps_goto _ _)
  | tempReadSp => exact keeps_verify _ _ (keeps_enterByte _ _ _)
  | romByte k => exact keeps_romByteDone k r s
  | tempByte k => exact keeps_tempByteDone k r s

theorem keeps_afterReset (c : ResetCall) (s : State) : Keeps s (afterReset c s) := by
  cases c
  · exact keeps_finish _ _
  all_goals exact keeps_goto _ _

theorem keeps_resetDone (c : ResetCall) (s : State) : Keeps s (resetDone c s) := by
  unfold resetDone
  refine Keeps.trans
    (t := { s with work := { s.work with sEcho := s.work.e, sPres := presence s.work.e } })
    (by constructor <;> rfl) ?_
  dsimp only
  split
  · exact keeps_afterReset _ _
  · exact keeps_raiseFail _ _

theorem keeps_txDone (s : State) : Keeps s (txDone s) := by
  unfold txDone
  repeat' split
  all_goals constructor <;> rfl

theorem keeps_rxDone (v : Byte) (s : State) : Keeps s (rxDone v s) := by
  unfold rxDone
  split
  · constructor <;> rfl
  · exact Keeps.trans (t := { s with
      work := { s.work with sRx := bitByte (readBit v), sRxv := true } })
      (by constructor <;> rfl) (keeps_finish _ _)
  · dsimp only
    split
    · exact Keeps.trans (t := { s with work.acc := accumulate s.work.acc v })
        (by constructor <;> rfl) (keeps_byteDone _ _ _)
    · constructor <;> rfl
  · exact Keeps.refl s

/-- A step of the sequencer is the commit, a LineCfg with what follows it, or keeps all that. -/
theorem sequencerStep_cases (s : State) :
    s.seq = .commit ∧ sequencerStep s = commit s.work.sCode s ∨
    (∃ c, s.seq = .cfgReset c ∧ Keeps (lineCfg .reset s) (sequencerStep s)) ∨
    (∃ c raised, s.seq = .cfgNormal c raised ∧ Keeps (lineCfg .normal s) (sequencerStep s)) ∨
    Keeps s (sequencerStep s) := by
  cases hq : s.seq <;> simp only [sequencerStep, hq]
  case commit => exact .inl ⟨trivial, trivial⟩
  case cfgReset c => exact .inr (.inl ⟨c, rfl, by constructor <;> rfl⟩)
  case cfgNormal c raised =>
    refine .inr (.inr (.inl ⟨c, raised, rfl, ?_⟩))
    unfold resetFinally
    dsimp only
    split
    · exact keeps_goto _ _
    · exact keeps_resetDone _ _
  all_goals exact .inr (.inr (.inr (by constructor <;> rfl)))

end Sys2Proof.Machine
end

