-- ==== Sys2Proof/Laws/Run.lean ====
section
/-! SUPPORT. Runs of several steps: a step at a time, and the two procedures every command is made of,
busReset (R125) and writeByte (R127), run under the scripts of Safety.lean. -/

namespace Sys2Proof.Machine

open Sys2Proof.Safety

/-- One step of a run that has a next state. -/
theorem run_step {s t : State} (h : step s = .next t) (n : Nat) : run (n + 1) s = run n t := by
  simp only [run, h]

@[simp] theorem run_zero (s : State) : run 0 s = .next s := rfl

/-- Runs compose. -/
theorem run_add {s t : State} {m : Nat} (h : run m s = .next t) (n : Nat) :
    run (m + n) s = run n t := by
  induction m generalizing s with
  | zero => cases h; rw [Nat.zero_add]
  | succ m ih =>
    rw [show m + 1 + n = (m + n) + 1 by omega]
    cases hs : step s with
    | next u => rw [run_step hs] at h ⊢; exact ih h
    | fault r => simp [run, hs] at h
    | refused r => simp [run, hs] at h

/-- It is the host's own run (Host/Core.lean). -/
theorem core_run_eq (n : Nat) (s : State) : Host.Core.run core n s = run n s := by
  induction n generalizing s with
  | zero => rfl
  | succ n ih =>
    simp only [Host.Core.run, run]
    have hc : core.step s = step s := rfl
    cases hs : step s with
    | next t => simp only [hc, hs]; exact ih t
    | fault r => simp only [hc, hs]; rfl
    | refused r => simp only [hc, hs]; rfl

theorem turn_tick {s : State} {rest : List Input} (h : s.inputs = .tick :: rest) : Turn s :=
  .inr ⟨rest, h⟩

theorem advance_eq {s : State} {i : Input} {rest : List Input} (h : s.inputs = i :: rest) :
    advance s = { s with inputs := rest } := by
  simp [advance, h]

/-! ## The two ends of a command -/

/-- A host write of one byte runs its code (R61). -/
theorem step_write {s : State} {rest : List Input} {off : Offset} {v : Byte}
    (h : s.inputs = hostWrite off v :: rest) :
    step s = runCode (.write off v) { s with inputs := rest } := by
  rw [step_host_ok h (accessCode_write off.isLt v), BitVec.ofNat_toNat, BitVec.setWidth_eq]

/-- A command written while BUSY = 0 is accepted in that step (R46). -/
theorem step_accept {s : State} {rest : List Input} {v : Byte} {opc : Nibble} {body : State → State}
    (hx : ∀ u, exec (decodeCmd v) u = accept opc body u) (hb : s.status.busy = false)
    (h : s.inputs = hostWrite 0x00#5 v :: rest) :
    step s = .next (body (latch opc { s with inputs := rest })) := by
  have hx' : runCode (.write 0x00#5 v) { s with inputs := rest } =
      accept opc body { s with inputs := rest } := hx _
  rw [step_write h, hx']
  exact accept_idle (s := { s with inputs := rest }) hb opc body

/-- The commit step (R45). -/
theorem run_commit {s : State} {rest : List Input} (hq : s.seq = .commit) (hp : s.pend = .none)
    (h : s.inputs = .tick :: rest) : run 1 s = .next (commit s.work.sCode { s with inputs := rest }) := by
  rw [run_step (step_turn_silent (turn_tick h) hp (by simp [sequencerCode, hq, Seq.frame])),
    advance_eq h]
  simp [sequencerStep, hq]

/-! ## One request, issued and answered -/

/-- A frame of writeByte that is no first frame of a command byte, taken by the transport. -/
theorem run_txByte {s : State} {c : ByteCall} {i : Fin 8} {rest : List Input}
    (hq : s.seq = .txByte c i) (hi : i ≠ 0 ∨ c.command = none) (hp : s.pend = .none)
    (h : s.inputs = .tick :: .tx .ok :: rest) :
    run 2 s = .next (txDone { s with inputs := rest }) := by
  rw [run_step (step_turn_txByte (turn_tick h) hp hq hi), advance_eq h]
  rw [run_step (t := txDone { s with inputs := rest })]
  · rfl
  rw [step_tx (rest := rest) (b := slotFrame (s.work.b.getLsbD i.val)) rfl rfl]
  simp [answerTx, hq, Seq.frame, lineTx, clearPend, txDone, ← hp]

/-- The first frame of a command byte of the block's own sequences, taken by the transport. -/
theorem run_txCommand {s : State} {c : ByteCall} {b : Byte} {rest : List Input}
    (hq : s.seq = .txByte c 0) (hc : c.command = some b) (hp : s.pend = .none)
    (h : s.inputs = .tick :: .tx .ok :: rest) :
    run 2 s = .next (txDone { s with inputs := rest, work.b := b }) := by
  rw [run_step (step_turn_command (turn_tick h) hp hq hc), advance_eq h]
  rw [run_step (t := txDone { s with inputs := rest, work.b := b })]
  · rfl
  rw [step_tx (rest := rest) (b := slotFrame (b.getLsbD 0)) rfl rfl]
  simp [answerTx, hq, Seq.frame, beginOwWrite, lineTx, clearPend, txDone, ← hp]

/-- A receiving position: the request is issued and a byte arrives. -/
theorem run_rx {s : State} {v : Byte} {rest : List Input} (hr : s.seq.receives = true)
    (hp : s.pend = .none) (h : s.inputs = .tick :: .rx (.byte v) :: rest) :
    run 2 s = .next (rxDone v { s with inputs := rest }) := by
  have hc : sequencerCode s = none := by
    cases hq : s.seq <;> simp [hq, Seq.receives] at hr <;> simp [sequencerCode, hq, Seq.frame]
  have hs : sequencerStep (advance s) = lineRx (advance s) := by
    cases hq : s.seq <;> simp [hq, Seq.receives] at hr <;> simp [sequencerStep, hq]
  rw [run_step (step_turn_silent (turn_tick h) hp hc), hs, advance_eq h]
  rw [run_step (t := rxDone v { s with inputs := rest })]
  · rfl
  rw [step_rx (rest := rest) rfl rfl]
  simp [answerRx, hr, lineRx, clearPend, ← hp]

/-! ## writeByte -/

/-- The frames of writeByte from slot `i` on, all taken: the echoes are asked for next (R127). -/
theorem run_txFrom {c : ByteCall} {rest : List Input} (n : Nat) {s : State} {i : Fin 8}
    (hn : i.val + n = 7) (hq : s.seq = .txByte c i) (hi : i ≠ 0 ∨ c.command = none)
    (hp : s.pend = .none)
    (h : s.inputs = (List.replicate (n + 1) [Input.tick, Input.tx .ok]).flatten ++ rest) :
    run (2 * (n + 1)) s =
      .next { s with inputs := rest, seq := .rxByte c 0, work.acc := 0x00#8 } := by
  induction n generalizing s i with
  | zero =>
    have hi7 : i = 7 := by ext; simpa using hn
    rw [run_txByte (rest := rest) hq hi hp (by simpa using h)]
    simp [txDone, hq, hi7]
  | succ n ih =>
    have hi7 : i ≠ 7 := by rintro rfl; simp at hn
    have hv : (i + 1).val = i.val + 1 := by
      have := i.isLt; simp [Fin.val_add]; omega
    rw [show 2 * (n + 1 + 1) = 2 + 2 * (n + 1) by omega,
      run_add (run_txByte (rest := (List.replicate (n + 1) [Input.tick, Input.tx .ok]).flatten ++ rest)
        hq hi hp (by simpa [List.replicate_succ] using h))]
    have ht : txDone { s with
        inputs := (List.replicate (n + 1) [Input.tick, Input.tx .ok]).flatten ++ rest } =
        goto (.txByte c (i + 1)) { s with
          inputs := (List.replicate (n + 1) [Input.tick, Input.tx .ok]).flatten ++ rest } := by
      simp [txDone, hq, hi7]
    rw [ht]
    exact (ih (s := goto (.txByte c (i + 1)) { s with
      inputs := (List.replicate (n + 1) [Input.tick, Input.tx .ok]).flatten ++ rest }) (i := i + 1)
      (by omega) rfl (.inl (by intro h0; rw [h0] at hv; simp at hv)) hp rfl).trans rfl

/-- The byte a call of writeByte finds loaded: the command byte, which its OW instruction loads. -/
def loaded (c : ByteCall) (s : State) : State :=
  { s with work.b := c.command.getD s.work.b }

/-- The eight frames of a call of writeByte, all taken (R127). -/
theorem run_txScript {s : State} {c : ByteCall} {rest : List Input} (hq : s.seq = .txByte c 0)
    (hp : s.pend = .none) (h : s.inputs = txScript ++ rest) :
    run 16 s = .next { loaded c s with
      inputs := rest, seq := .rxByte c 0, work.acc := 0x00#8 } := by
  cases hc : c.command with
  | none =>
    rw [show 16 = 2 * (7 + 1) by rfl, run_txFrom 7 (by rfl) hq (.inr hc) hp (by simpa [txScript] using h)]
    simp [loaded, hc]
  | some b =>
    rw [show 16 = 2 + 2 * (6 + 1) by rfl, run_add (run_txCommand
      (rest := (List.replicate 7 [Input.tick, Input.tx .ok]).flatten ++ rest) hq hc hp
      (by simpa [txScript, List.replicate_succ] using h))]
    have ht : txDone { s with
        inputs := (List.replicate 7 [Input.tick, Input.tx .ok]).flatten ++ rest, work.b := b } =
        goto (.txByte c 1) { s with
          inputs := (List.replicate 7 [Input.tick, Input.tx .ok]).flatten ++ rest, work.b := b } := by
      simp [txDone, hq]
    rw [ht]
    refine (run_txFrom (s := goto (.txByte c 1) { s with
      inputs := (List.replicate 7 [Input.tick, Input.tx .ok]).flatten ++ rest, work.b := b })
      (rest := rest) (i := 1) 6 (by rfl) rfl (.inl (by decide)) hp rfl).trans ?_
    simp [goto, loaded, hc]

/-- The echoes of writeByte from slot `i` on, all received: the call returns the accumulator (R127). -/
theorem run_rxFrom {c : ByteCall} {rest : List Input} (es : List Byte) (v : Byte) {s : State}
    {i : Fin 8} (hn : i.val + es.length = 7) (hq : s.seq = .rxByte c i) (hp : s.pend = .none)
    (h : s.inputs = rxScript (v :: es) ++ rest) :
    run (2 * (es.length + 1)) s =
      .next (byteDone c ((v :: es).foldl accumulate s.work.acc) { s with
        inputs := rest, seq := .rxByte c 7
        work.acc := (v :: es).foldl accumulate s.work.acc }) := by
  induction es generalizing s i v with
  | nil =>
    have hi7 : i = 7 := by ext; simpa using hn
    subst hi7
    rw [show 2 * (([] : List Byte).length + 1) = 2 by rfl,
      run_rx (rest := rest) (by simp [hq, Seq.receives]) hp (by simpa [rxScript] using h)]
    simp [rxDone, hq]
  | cons w es ih =>
    simp only [List.length_cons] at hn
    have hi7 : i ≠ 7 := by rintro rfl; simp at hn
    have hv : (i + 1).val = i.val + 1 := by
      have := i.isLt; simp [Fin.val_add]; omega
    rw [show 2 * ((w :: es).length + 1) = 2 + 2 * (es.length + 1) by simp; omega,
      run_add (run_rx (rest := rxScript (w :: es) ++ rest) (by simp [hq, Seq.receives]) hp
        (by simpa [rxScript] using h))]
    have ht : rxDone v { s with inputs := rxScript (w :: es) ++ rest } =
        { s with
          inputs := rxScript (w :: es) ++ rest, seq := .rxByte c (i + 1)
          work.acc := accumulate s.work.acc v } := by
      simp [rxDone, hq, hi7]
    rw [ht]
    exact (ih w (s := { s with
      inputs := rxScript (w :: es) ++ rest, seq := .rxByte c (i + 1)
      work.acc := accumulate s.work.acc v }) (i := i + 1) (by omega) rfl hp rfl).trans rfl

/-- A call of writeByte that receives all its echoes returns their readback (R127). -/
theorem run_byteScript {s : State} {c : ByteCall} (echoes : Vector Byte 8) {rest : List Input}
    (hq : s.seq = .txByte c 0) (hp : s.pend = .none)
    (h : s.inputs = byteScript echoes.toList ++ rest) :
    run 32 s = .next (byteDone c (readback echoes.toList) { loaded c s with
      inputs := rest, seq := .rxByte c 7, work.acc := readback echoes.toList }) := by
  obtain ⟨v, es, he⟩ : ∃ v es, echoes.toList = v :: es :=
    List.exists_cons_of_length_eq_add_one (n := 7) (by simp)
  have hlen : es.length = 7 := by
    have := congrArg List.length he; simpa using this.symm
  rw [show 32 = 16 + 2 * (es.length + 1) by omega,
    run_add (run_txScript (rest := rxScript echoes.toList ++ rest) hq hp (by simpa [byteScript] using h))]
  refine (run_rxFrom (s := { loaded c s with
    inputs := rxScript echoes.toList ++ rest, seq := .rxByte c 0, work.acc := 0x00#8 })
    (rest := rest) (c := c) (i := 0) es v (by simpa using hlen) rfl hp (by rw [he])).trans ?_
  rw [he]
  rfl

/-! ## busReset -/

/-- A bus reset whose frame is taken and whose echo arrives (R125). -/
theorem run_resetScript {s : State} {c : ResetCall} (e : Byte) {rest : List Input}
    (hq : s.seq = .cfgReset c) (hp : s.pend = .none) (h : s.inputs = resetScript e ++ rest) :
    run 6 s = .next (resetDone c { s with
      inputs := rest, status.lcfg := .normal, seq := .cfgNormal c false
      work := { s.work with sPres := false, e := e } }) := by
  simp only [resetScript, List.cons_append, List.nil_append] at h
  rw [run_step (step_turn_silent (turn_tick h) hp (by simp [sequencerCode, hq, Seq.frame])),
    advance_eq h]
  simp only [sequencerStep, hq, resetBegin]
  let s1 : State := { s with status.lcfg := .reset, work.sPres := false }
  have h1 : step { s1 with
        seq := .txPulse c, inputs := .tick :: .tx .ok :: .tick :: .rx (.byte e) :: .tick :: rest } =
      .next { s1 with
        seq := .txPulse c, inputs := .tx .ok :: .tick :: .rx (.byte e) :: .tick :: rest
        pend := .tx resetFrame } :=
    step_turn_txPulse (turn_tick rfl) hp rfl
  have h2 : step { s1 with
        seq := .txPulse c, inputs := .tx .ok :: .tick :: .rx (.byte e) :: .tick :: rest
        pend := .tx resetFrame } =
      .next { s1 with seq := .rxEcho c, inputs := .tick :: .rx (.byte e) :: .tick :: rest } := by
    rw [step_tx (b := resetFrame) rfl rfl]
    simp [answerTx, Seq.frame, goto, clearPend, txDone, s1, ← hp]
  have h3 : run 2 { s1 with seq := .rxEcho c, inputs := .tick :: .rx (.byte e) :: .tick :: rest } =
      .next { s1 with seq := .cfgNormal c false, inputs := .tick :: rest, work.e := e } :=
    run_rx rfl hp rfl
  have h4 : step { s1 with seq := .cfgNormal c false, inputs := .tick :: rest, work.e := e } =
      .next (resetFinally c false { s1 with
        seq := .cfgNormal c false, inputs := rest, work.e := e }) :=
    step_turn_silent (turn_tick rfl) hp rfl
  refine (run_step (n := 4) h1).trans ((run_step (n := 3) h2).trans ((run_add h3 1).trans
    ((run_step (n := 0) h4).trans rfl)))

end Sys2Proof.Machine
end

