-- ==== Sys2Proof/Laws/Reads.lean ====
section
/-! SUPPORT. The two procedures that read a buffer byte by byte, READROM's eight reads (R170) and READTEMP's
nine (R180 step 8), run under the scripts of Safety.lean up to their checks. -/

namespace Sys2Proof.Machine

open Sys2Proof.Safety

/-- Two buffers agree below `k`. -/
def AgreeBelow {n : Nat} (k : Nat) (v w : Vector Byte n) : Prop :=
  ∀ (j : Nat) (h : j < n), j < k → v[j] = w[j]

theorem agree_set {n : Nat} {v w : Vector Byte n} {k : Fin n} {x : Byte} (hx : x = w[k])
    (h : AgreeBelow k.val v w) : AgreeBelow (k.val + 1) (v.set k x) w := by
  intro j hj hjk
  by_cases hk : j = k.val
  · subst hk; simpa using hx
  · rw [Vector.getElem_set_ne _ _ (fun e => hk e.symm)]
    exact h j hj (by omega)

theorem agree_all {n : Nat} {v w : Vector Byte n} (h : AgreeBelow n v w) : v = w :=
  Vector.ext fun j hj => h j hj hj

theorem readsScript_drop {n : Nat} (echoes : Vector (Vector Byte 8) n) (k : Fin n) :
    bytesScript ((echoes.toList.map Vector.toList).drop k.val) =
      byteScript echoes[k].toList ++ bytesScript ((echoes.toList.map Vector.toList).drop (k.val + 1)) := by
  rw [List.drop_eq_getElem_cons (by simp)]
  simp [bytesScript]

/-- `t` is `s` but for the script, the position and the buffers and locals of the running command. -/
structure SameCommand (s t : State) : Prop where
  frame : t = { s with inputs := t.inputs, seq := t.seq, work := t.work }
  op : t.work.op = s.work.op
  sPres : t.work.sPres = s.work.sPres
  sEcho : t.work.sEcho = s.work.sEcho
  sRxv : t.work.sRxv = s.work.sRxv

theorem SameCommand.trans {s t u : State} (h : SameCommand s t) (k : SameCommand t u) :
    SameCommand s u :=
  ⟨by rw [k.frame, h.frame], k.op.trans h.op, k.sPres.trans h.sPres, k.sEcho.trans h.sEcho,
    k.sRxv.trans h.sRxv⟩

/-- READROM's reads from byte `k` on: the check runs on the eight bytes (R170). -/
theorem run_romReads (echoes : Vector (Vector Byte 8) 8) {rest : List Input} (m : Nat) {k : Fin 8}
    {s : State} (hm : k.val + m = 7) (hq : s.seq = .txByte (.romByte k) 0) (hp : s.pend = .none)
    (h : s.inputs = bytesScript ((echoes.toList.map Vector.toList).drop k.val) ++ rest)
    (ha : AgreeBelow k.val s.work.sRom (bytesOf echoes)) :
    ∃ t, run (32 * (m + 1)) s = .next (romCheck t) ∧ SameCommand s t ∧ t.inputs = rest ∧
      t.work.sRom = bytesOf echoes ∧ t.seq = .rxByte (.romByte 7) 7 := by
  induction m generalizing k s with
  | zero =>
    have hx : readback echoes[k].toList = (bytesOf echoes)[k] := by simp [bytesOf]
    have hrun := run_byteScript echoes[k] hq hp (h.trans (by
      rw [readsScript_drop, List.append_assoc]))
    have hk : k = 7 := by ext; simpa using hm
    subst hk
    have hd : ∀ (r : Byte) (u : State), byteDone (.romByte 7) r u =
        romCheck { u with work := { u.work with sRom := u.work.sRom.set (7 : Fin 8) r } } := by
      intro r u; simp [byteDone, romByteDone]
    rw [hd] at hrun
    exact ⟨_, hrun, ⟨rfl, rfl, rfl, rfl, rfl⟩, by
      show bytesScript (List.drop 8 _) ++ rest = rest
      rw [List.drop_eq_nil_of_le (by simp)]; rfl, agree_all (agree_set hx ha), rfl⟩
  | succ m ih =>
    have hx : readback echoes[k].toList = (bytesOf echoes)[k] := by simp [bytesOf]
    have hrun := run_byteScript echoes[k] hq hp (h.trans (by
      rw [readsScript_drop, List.append_assoc]))
    have hk : k ≠ 7 := by rintro rfl; simp at hm
    have hv : (k + 1).val = k.val + 1 := by have := k.isLt; simp [Fin.val_add]; omega
    have hd : ∀ (r : Byte) (u : State), byteDone (.romByte k) r u =
        enterByte (.romByte (k + 1)) 0xFF#8
          { u with work := { u.work with sRom := u.work.sRom.set k r } } := by
      intro r u; simp [byteDone, romByteDone, hk]
    rw [hd] at hrun
    have hstep := agree_set hx ha
    rw [← hv] at hstep hrun
    obtain ⟨u, hu, hq', hp', hin', ha', hs⟩ : ∃ u, run 32 s = .next u ∧
        u.seq = .txByte (.romByte (k + 1)) 0 ∧ u.pend = .none ∧
        u.inputs = bytesScript ((echoes.toList.map Vector.toList).drop (k + 1).val) ++ rest ∧
        AgreeBelow (k + 1).val u.work.sRom (bytesOf echoes) ∧ SameCommand s u :=
      ⟨_, hrun, rfl, hp, rfl, hstep, rfl, rfl, rfl, rfl, rfl⟩
    obtain ⟨t, h1, h2, h3⟩ := ih (by omega) hq' hp' hin' ha'
    exact ⟨t, by rw [show 32 * (m + 1 + 1) = 32 + 32 * (m + 1) by omega, run_add hu, h1],
      hs.trans h2, h3⟩

/-- READTEMP's reads from byte `k` on: the checks run on the nine bytes (R180 steps 8 to 12). -/
theorem run_tempReads (echoes : Vector (Vector Byte 8) 9) {rest : List Input} (m : Nat) {k : Fin 9}
    {s : State} (hm : k.val + m = 8) (hq : s.seq = .txByte (.tempByte k) 0) (hp : s.pend = .none)
    (h : s.inputs = bytesScript ((echoes.toList.map Vector.toList).drop k.val) ++ rest)
    (ha : AgreeBelow k.val s.work.sSp (bytesOf echoes)) :
    ∃ t, run (32 * (m + 1)) s = .next (tempCheck t) ∧ SameCommand s t ∧ t.inputs = rest ∧
      t.work.sSp = bytesOf echoes ∧ t.seq = .rxByte (.tempByte 8) 7 := by
  induction m generalizing k s with
  | zero =>
    have hx : readback echoes[k].toList = (bytesOf echoes)[k] := by simp [bytesOf]
    have hrun := run_byteScript echoes[k] hq hp (h.trans (by
      rw [readsScript_drop, List.append_assoc]))
    have hk : k = 8 := by ext; simpa using hm
    subst hk
    have hd : ∀ (r : Byte) (u : State), byteDone (.tempByte 8) r u =
        tempCheck { u with work := { u.work with sSp := u.work.sSp.set (8 : Fin 9) r } } := by
      intro r u; simp [byteDone, tempByteDone]
    rw [hd] at hrun
    exact ⟨_, hrun, ⟨rfl, rfl, rfl, rfl, rfl⟩, by
      show bytesScript (List.drop 9 _) ++ rest = rest
      rw [List.drop_eq_nil_of_le (by simp)]; rfl, agree_all (agree_set hx ha), rfl⟩
  | succ m ih =>
    have hx : readback echoes[k].toList = (bytesOf echoes)[k] := by simp [bytesOf]
    have hrun := run_byteScript echoes[k] hq hp (h.trans (by
      rw [readsScript_drop, List.append_assoc]))
    have hk : k ≠ 8 := by rintro rfl; simp at hm
    have hv : (k + 1).val = k.val + 1 := by have := k.isLt; simp [Fin.val_add]; omega
    have hd : ∀ (r : Byte) (u : State), byteDone (.tempByte k) r u =
        enterByte (.tempByte (k + 1)) 0xFF#8
          { u with work := { u.work with sSp := u.work.sSp.set k r } } := by
      intro r u; simp [byteDone, tempByteDone, hk]
    rw [hd] at hrun
    have hstep := agree_set hx ha
    rw [← hv] at hstep hrun
    obtain ⟨u, hu, hq', hp', hin', ha', hs⟩ : ∃ u, run 32 s = .next u ∧
        u.seq = .txByte (.tempByte (k + 1)) 0 ∧ u.pend = .none ∧
        u.inputs = bytesScript ((echoes.toList.map Vector.toList).drop (k + 1).val) ++ rest ∧
        AgreeBelow (k + 1).val u.work.sSp (bytesOf echoes) ∧ SameCommand s u :=
      ⟨_, hrun, rfl, hp, rfl, hstep, rfl, rfl, rfl, rfl, rfl⟩
    obtain ⟨t, h1, h2, h3⟩ := ih (by omega) hq' hp' hin' ha'
    exact ⟨t, by rw [show 32 * (m + 1 + 1) = 32 + 32 * (m + 1) by omega, run_add hu, h1],
      hs.trans h2, h3⟩

end Sys2Proof.Machine
end

