-- ==== Sys2Proof/Laws/Commands.lean ====
section
/-! SUPPORT. The parts the whole commands are put together from, each run from a position at which nothing is
outstanding to the next such position: a bus reset that sees presence or not (R125), a command byte that is
confirmed or not (R128), the Wait (R123), the checks (R170, R180), the commit (R45). -/

namespace Sys2Proof.Machine

open Sys2Proof.Safety

/-- The sequencer stands at `q` with nothing outstanding, and the script is `l`. -/
structure Ready (q : Seq) (l : List Input) (s : State) : Prop where
  seq : s.seq = q
  pend : s.pend = .none
  inputs : s.inputs = l

/-- What the running command has latched and staged so far. -/
structure Staged (op : Nibble) (pres : Bool) (echo : Byte) (s : State) : Prop where
  op : s.work.op = op
  pres : s.work.sPres = pres
  echo : s.work.sEcho = echo

/-- Only the script, the position and the running command's own state differ. -/
def OnlyWork (s t : State) : Prop :=
  t = { s with inputs := t.inputs, seq := t.seq, work := t.work }

theorem presence_iff (e : Byte) : presence e = true ↔ e ≠ 0x00#8 ∧ e ≠ 0xF0#8 := by
  simp [presence]

theorem aboveAbsZero_iff (t : BitVec 16) : aboveAbsZero t = true ↔ -4370 ≤ t.toInt := by
  simp [aboveAbsZero]

theorem presence_false_iff (e : Byte) : presence e = false ↔ e = 0x00#8 ∨ e = 0xF0#8 := by
  by_cases h1 : e = 0x00#8 <;> by_cases h2 : e = 0xF0#8 <;> simp_all [presence]

section
variable {s : State} {rest : List Input}

theorem step_readrom (hb : s.status.busy = false) (hp : s.pend = .none)
    (h : s.inputs = hostWrite 0x00#5 0x06#8 :: rest) :
    ∃ t, step s = .next t ∧ Ready (.cfgReset .rom) rest t ∧ t.work.op = 0x6#4 ∧
      t = { s with
        inputs := rest, seq := t.seq, work := t.work
        status := { s.status with
          busy := true, cmderr := false, done := false, err := false, romv := false } } :=
  ⟨_, step_accept (body := fun t => start (.cfgReset .rom) { t with status.romv := false })
    (fun _ => rfl) hb h, ⟨rfl, hp, rfl⟩, rfl, rfl⟩

theorem step_readtemp (hb : s.status.busy = false) (hp : s.pend = .none)
    (h : s.inputs = hostWrite 0x00#5 0x07#8 :: rest) :
    ∃ t, step s = .next t ∧ Ready (.cfgReset .temp1) rest t ∧ t.work.op = 0x7#4 ∧
      t = { s with
        inputs := rest, seq := t.seq, work := t.work
        status := { s.status with
          busy := true, cmderr := false, done := false, err := false, tempv := false } } :=
  ⟨_, step_accept (body := fun t => start (.cfgReset .temp1) { t with status.tempv := false })
    (fun _ => rfl) hb h, ⟨rfl, hp, rfl⟩, rfl, rfl⟩

/-- A bus reset that sees presence goes on to the position `q` its command names (R125). -/
theorem run_reset_present {c : ResetCall} {e : Byte} {q : Seq}
    (h : Ready (.cfgReset c) (resetScript e ++ rest) s) (he : presence e = true)
    (hq : ∀ u, afterReset c u = goto q u) :
    ∃ t, run 6 s = .next t ∧ Ready q rest t ∧ Staged s.work.op true e t ∧
      OnlyWork { s with status.lcfg := .normal } t := by
  have hrun := run_resetScript e h.seq h.pend h.inputs
  simp only [resetDone, he, hq, if_true] at hrun
  exact ⟨_, hrun, ⟨rfl, h.pend, rfl⟩, ⟨rfl, rfl, rfl⟩, rfl⟩

/-- A bus reset that sees no presence ends its command with NODEV_RESET (R125). -/
theorem run_reset_absent {c : ResetCall} {e : Byte}
    (h : Ready (.cfgReset c) (resetScript e ++ rest) s) (he : presence e = false) :
    ∃ t, run 6 s = .next t ∧ Ready .commit rest t ∧ Staged s.work.op false e t ∧
      OnlyWork { s with status.lcfg := .normal } t ∧ t.work.sCode = .nodevReset := by
  have hrun := run_resetScript e h.seq h.pend h.inputs
  simp only [resetDone, he] at hrun
  rw [if_neg (by simp), raiseFail_outside_try (by simp)] at hrun
  exact ⟨_, hrun, ⟨rfl, h.pend, rfl⟩, ⟨rfl, rfl, rfl⟩, rfl, rfl⟩

/-- A command byte that is confirmed goes on to the position `q` (R128). -/
theorem run_command_confirmed {c : ByteCall} {v : Vector Byte 8} {b : Byte} {op : Nibble} {pres : Bool}
    {e : Byte} {go : State → State} {q : Seq}
    (h : Ready (.txByte c 0) (byteScript v.toList ++ rest) s) (hs : Staged op pres e s)
    (hc : c.command = some b) (hv : readback v.toList = b)
    (hd : ∀ r u, byteDone c r u = verify r go u)
    (hq : ∀ u, go u = { u with seq := q, work.b := (go u).work.b }) :
    ∃ t, run 32 s = .next t ∧ Ready q rest t ∧ Staged op pres e t ∧ OnlyWork s t := by
  have hrun := run_byteScript v h.seq h.pend h.inputs
  rw [hd, verify_eq (by simp [loaded, hc, hv]), hq] at hrun
  exact ⟨_, hrun, ⟨rfl, h.pend, rfl⟩, ⟨hs.op, hs.pres, hs.echo⟩, rfl⟩

/-- A command byte that is not confirmed ends its command with NODEV_WRITE (R128). -/
theorem run_command_unconfirmed {c : ByteCall} {v : Vector Byte 8} {b : Byte} {op : Nibble} {pres : Bool}
    {e : Byte} {go : State → State}
    (h : Ready (.txByte c 0) (byteScript v.toList ++ rest) s) (hs : Staged op pres e s)
    (hc : c.command = some b) (hv : readback v.toList ≠ b)
    (hd : ∀ r u, byteDone c r u = verify r go u) :
    ∃ t, run 32 s = .next t ∧ Ready .commit rest t ∧ Staged op pres e t ∧ OnlyWork s t ∧
      t.work.sCode = .nodevWrite := by
  have hrun := run_byteScript v h.seq h.pend h.inputs
  rw [hd, verify_ne (by simp [loaded, hc, hv]), raiseFail_outside_try (by simp)] at hrun
  exact ⟨_, hrun, ⟨rfl, h.pend, rfl⟩, ⟨hs.op, hs.pres, hs.echo⟩, rfl, rfl⟩

/-- The Wait, issued and ended by a timer report of at least 800 ms (R123). -/
theorem run_wait {ms : Nat} (h : Ready .wait (.tick :: .timer ms :: rest) s) (hms : 800 ≤ ms) :
    ∃ t, run 2 s = .next t ∧ Ready (.cfgReset .temp2) rest t ∧
      t = { s with inputs := rest, seq := .cfgReset .temp2, timer := .stopped } := by
  have h1 : step s = .next (startWait { s with inputs := .timer ms :: rest }) := by
    rw [step_turn_silent (turn_tick h.inputs) h.pend (by simp [sequencerCode, h.seq, Seq.frame]),
      advance_eq h.inputs]
    simp [sequencerStep, h.seq]
  have h2 : step (startWait { s with inputs := .timer ms :: rest }) =
      .next { s with
        inputs := rest, pend := .none, timer := .stopped, seq := .cfgReset .temp2 } := by
    rw [step_timer (s := startWait { s with inputs := .timer ms :: rest }) (ms := ms) rfl rfl,
      if_pos (show tConvMs ≤ ms from hms)]
    simp [timerReport, startWait, h.seq, goto, clearPend]
  refine ⟨_, (run_step h1 1).trans (run_step h2 0), ⟨rfl, rfl, rfl⟩, ?_⟩
  simp [h.pend]

/-- The commit of a command that stages no RXDATA (R45). -/
theorem run_commit_staged {code : ResultCode} {op : Nibble} {pres : Bool} {e : Byte}
    (h : Ready .commit (.tick :: rest) s) (hs : Staged op pres e s) (hc : s.work.sCode = code)
    (hop : isExchange op = false) :
    run 1 s = .next { s with
      inputs := rest
      result := codeByte code
      echo := e
      seq := .idle
      rom := if commitsRom op code then s.work.sRom else s.rom
      sp := if commitsTemp op code then s.work.sSp else s.sp
      status := { s.status with
        busy := false, done := true, err := errOf code, pres := pres
        romv := commitsRom op code || s.status.romv
        tempv := commitsTemp op code || s.status.tempv } } := by
  rw [run_commit h.seq h.pend h.inputs, hc]
  simp only [commit, hs.op, hs.pres, hs.echo, hop]
  rfl

/-- READROM's check ends the command with the code `romResult` gives (R170). -/
theorem romCheck_eq (h : ∀ r, s.seq ≠ .txPulse r ∧ s.seq ≠ .rxEcho r) :
    romCheck s = finish (if romResult s.work.sRom = 0x00#8 then .ok else .crcErr) s := by
  unfold romCheck romResult romCrcOk
  by_cases hc : crc8 (s.work.sRom.toList.take 7) = s.work.sRom[7]
  · simp [hc]
  · simp only [beq_iff_eq, hc, ne_eq, not_false_eq_true, if_true, if_false]
    exact raiseFail_outside_try h

/-- READTEMP's checks end the command with the code `tempResult` gives (R180, R203). -/
theorem tempCheck_eq (h : ∀ r, s.seq ≠ .txPulse r ∧ s.seq ≠ .rxEcho r) :
    ∃ c, codeByte c = tempResult s.work.sSp ∧ tempCheck s = finish c s := by
  have hr := fun c => raiseFail_outside_try (c := c) h
  have hz : (s.work.sSp[1] ++ s.work.sSp[0]).toInt < -4370 ↔
      ¬ aboveAbsZero (trawOf s.work.sSp) = true := by
    rw [aboveAbsZero_iff, Int.not_le]; rfl
  unfold tempCheck tempResult
  simp only [hr, hz, cfgOk, spCrcOk]
  by_cases h1 : s.work.sSp[4] &&& 0x9F#8 = 0x1F#8
  · by_cases h2 : crc8 (s.work.sSp.toList.take 8) = s.work.sSp[8]
    · by_cases h3 : aboveAbsZero (trawOf s.work.sSp) = true
      · exact ⟨.ok, by simp [h1, h2, h3]; rfl, by simp [h1, h2, h3]⟩
      · exact ⟨.rangeErr, by simp [h1, h2, h3]; rfl, by simp [h1, h2, h3]⟩
    · exact ⟨.crcErr, by simp [h1, h2]; rfl, by simp [h1, h2]⟩
  · exact ⟨.unexpDev, by simp [h1]; rfl, by simp [h1]⟩

end

end Sys2Proof.Machine
end

