-- ==== Sys2Proof/Laws/Crc8.lean ====
section
/-! SUPPORT. The CRC function's small lemmas (spec/41_crc8.md R150, R151). -/

namespace Sys2Proof.Machine

@[simp] theorem crc8_nil : crc8 [] = 0x00#8 := rfl

/-- The accumulator is carried from one byte to the next (R151). -/
theorem crc8_concat (bs : List Byte) (v : Byte) : crc8 (bs ++ [v]) = crc8Byte (crc8 bs) v := by
  simp [crc8]

/-- Only the XOR of accumulator and byte matters (R150). -/
theorem crc8Byte_eq_of_xor (c b : Byte) : crc8Byte c b = crc8Byte 0x00#8 (c ^^^ b) := by
  simp [crc8Byte]

/-- One iteration is linear: the test bit decides whether 0x8C is XORed in (R150). -/
theorem crc8Shift_xor (a b : Byte) : crc8Shift (a ^^^ b) = crc8Shift a ^^^ crc8Shift b := by
  unfold crc8Shift
  rw [BitVec.getLsbD_xor, BitVec.ushiftRight_xor_distrib]
  generalize a >>> 1 = x
  generalize b >>> 1 = y
  cases a.getLsbD 0 <;> cases b.getLsbD 0 <;> simp only [Bool.xor_false, Bool.xor_true,
    Bool.not_true, Bool.not_false, if_true, if_false, Bool.false_eq_true] <;> ext i hi <;>
    simp only [BitVec.getElem_xor] <;> cases x[i] <;> cases y[i] <;> cases (0x8C#8)[i] <;> rfl

end Sys2Proof.Machine
end

