-- ==== Sys2Proof/Laws/Invariant.lean ====
section
/-! SUPPORT. The clauses of the invariant that speak of the sequencer's position, and that every move of the
sequencer to a new position meets them. -/

namespace Sys2Proof.Machine

open Sys2Proof.Safety

/-- The invariant's clauses about the position, at a position where nothing is outstanding yet. -/
structure Placed (t : State) : Prop where
  idle : t.seq ≠ .idle
  lcfg : t.status.lcfg = .reset ↔ t.seq.inReset = true
  pend : t.pend = .none
  timer : t.timer = .stopped
  opcode : ∀ o, t.seq.opcode = some o → t.work.op = o
  byte : byteFits t = true
  raised : ∀ c, t.seq = .cfgNormal c true → t.work.sCode = .timeout ∨ t.work.sCode = .ioErr
  romCommit : t.seq = .commit → t.work.op = 0x6#4 → t.work.sCode = .ok →
    romCrcOk t.work.sRom = true
  tempCommit : t.seq = .commit → t.work.op = 0x7#4 → t.work.sCode = .ok →
    cfgOk t.work.sSp[4] = true ∧ spCrcOk t.work.sSp = true ∧
      aboveAbsZero (trawOf t.work.sSp) = true

/-- A move of the running command keeps the invariant when its new position is a legal one. -/
theorem invariant_of_placed {s u t : State} (hi : Invariant s) (hb : s.status.busy = true)
    (hst : ∃ m, u.status = { s.status with lcfg := m }) (hres : u.result = s.result)
    (hrom : u.rom = s.rom) (hsp : u.sp = s.sp) (hop : u.work.op = s.work.op) (k : Keeps u t)
    (p : Placed t) : Invariant t := by
  obtain ⟨m, hst⟩ := hst
  have e := k.status.trans hst
  have e2 := k.result.trans hres
  have e3 := k.rom.trans hrom
  have e4 := k.sp.trans hsp
  have e5 := k.op.trans hop
  constructor
  case idle => rw [e]; simp [p.idle, hb]
  case lcfg => exact p.lcfg
  case pend => simp [pendFits, p.pend]
  case timer => simp [p.timer, p.pend]
  case opcode => exact p.opcode
  case byte => exact p.byte
  case raised => exact p.raised
  case running => rw [e]; exact hi.running
  case err => rw [e, e2]; exact hi.err
  case errDone => rw [e]; exact hi.errDone
  case result => rw [e2]; exact hi.result
  case romv => rw [e, e3]; exact hi.romv
  case tempv => rw [e, e4]; exact hi.tempv
  case romBusy => rw [e, e5]; exact hi.romBusy
  case tempBusy => rw [e, e5]; exact hi.tempBusy
  case romCommit => exact p.romCommit
  case tempCommit => exact p.tempCommit

/-- The invariant does not speak of DATA, RXDATA, ECHO, CRC and the model's own fields. -/
theorem invariant_congr {s t : State} (hi : Invariant s) (h1 : t.status = s.status)
    (h2 : t.result = s.result) (h3 : t.rom = s.rom) (h4 : t.sp = s.sp) (h5 : t.seq = s.seq)
    (h6 : t.work = s.work) (h7 : t.pend = s.pend) (h8 : t.timer = s.timer) : Invariant t := by
  cases s; cases t; dsimp only at *; subst_vars
  obtain ⟨a1, a2, a3, a4, a5, a6, a7, a8, a9, a10, a11, a12, a13, a14, a15, a16, a17⟩ := hi
  constructor <;> assumption

theorem lcfg_normal_of_ne {s : State} (h : ¬ s.status.lcfg = .reset) : s.status.lcfg = .normal := by
  cases hl : s.status.lcfg <;> simp_all

theorem busy_of_not_idle {s : State} (hi : Invariant s) (h : s.seq ≠ .idle) :
    s.status.busy = true := by
  cases hb : s.status.busy
  · exact absurd (hi.idle.2 hb) h
  · rfl

theorem timer_stopped_of_pend {s : State} (hi : Invariant s) (h : s.pend ≠ .wait) :
    s.timer = .stopped := by
  have ht := hi.timer
  cases hs : s.timer <;> simp_all

/-! ## Moves -/

theorem placed_goto {q : Seq} {s : State} (hq : q ≠ .idle ∧ q ≠ .commit)
    (hl : s.status.lcfg = .reset ↔ q.inReset = true) (hp : s.pend = .none) (ht : s.timer = .stopped)
    (ho : ∀ o, q.opcode = some o → s.work.op = o) (hb : byteFits (goto q s) = true)
    (hr : ∀ c, q ≠ .cfgNormal c true) : Placed (goto q s) :=
  ⟨hq.1, hl, hp, ht, ho, hb, fun c h => absurd h (hr c), fun h => absurd h hq.2,
    fun h => absurd h hq.2⟩

theorem placed_finish {c : ResultCode} {s : State} (hl : s.status.lcfg = .normal) (hp : s.pend = .none)
    (ht : s.timer = .stopped)
    (hc : c = .ok → (s.work.op = 0x6#4 → romCrcOk s.work.sRom = true) ∧
      (s.work.op = 0x7#4 → cfgOk s.work.sSp[4] = true ∧ spCrcOk s.work.sSp = true ∧
        aboveAbsZero (trawOf s.work.sSp) = true)) : Placed (finish c s) := by
  constructor
  · simp [finish]
  · simp [finish, hl, Seq.inReset]
  · exact hp
  · exact ht
  · intro o h; cases h
  · rfl
  · intro c h; cases h
  · intro _ h h'; exact (hc h').1 h
  · intro _ h h'; exact (hc h').2 h

theorem placed_raiseFail {c : ResultCode} {s : State}
    (hl : s.status.lcfg = .reset ↔ s.seq.inReset = true) (hp : s.pend = .none)
    (ht : s.timer = .stopped) (hc : c ≠ .ok) (hn : ∀ k b, s.seq ≠ .cfgNormal k b)
    (ho : ∀ o, s.seq.opcode = some o → s.work.op = o)
    (hcc : s.seq.inReset = true → c = .timeout ∨ c = .ioErr) : Placed (raiseFail c s) := by
  rcases raiseFail_cases c s with ⟨r, h, e⟩ | ⟨h, e⟩ <;> rw [e]
  · have hr : s.seq.inReset = true := by rcases h with h | h <;> rw [h] <;> rfl
    constructor
    · simp
    · simp [hl.2 hr, Seq.inReset]
    · exact hp
    · exact ht
    · intro o hh; apply ho; rcases h with h | h <;> rw [h] <;> exact hh
    · rfl
    · intro c _; exact hcc hr
    · intro h; cases h
    · intro h; cases h
  · refine placed_finish (lcfg_normal_of_ne ?_) hp ht (fun h => absurd h hc)
    rw [hl]
    cases hq : s.seq <;> simp_all [Seq.inReset]

theorem placed_enterByte {c : ByteCall} {b : Byte} {s : State} (hl : s.status.lcfg = .normal)
    (hp : s.pend = .none) (ht : s.timer = .stopped) (ho : s.work.op = c.opcode)
    (hb : b = c.operand s.work.d) : Placed (enterByte c b s) := by
  constructor
  · simp [enterByte]
  · simp [enterByte, hl, Seq.inReset]
  · exact hp
  · exact ht
  · intro o h; cases h; exact ho
  · simp [enterByte, byteFits, hb]
  · intro _ h; cases h
  · intro h; cases h
  · intro h; cases h

/-- The last echo of a call of writeByte has just arrived. -/
structure AtReturn (c : ByteCall) (s : State) : Prop where
  seq : ∃ i, s.seq = .rxByte c i
  lcfg : s.status.lcfg = .normal
  pend : s.pend = .none
  timer : s.timer = .stopped
  op : s.work.op = c.opcode
  b : s.work.b = c.operand s.work.d

theorem AtReturn.placed_raise {k : ResultCode} {c : ByteCall} {s s' : State} (h : AtReturn c s)
    (hk : k ≠ .ok) (e1 : s'.seq = s.seq) (e2 : s'.status = s.status) (e3 : s'.pend = s.pend)
    (e4 : s'.timer = s.timer) (e5 : s'.work.op = s.work.op) : Placed (raiseFail k s') := by
  obtain ⟨i, hq⟩ := h.seq
  apply placed_raiseFail
  · rw [e1, e2, hq, h.lcfg]; simp [Seq.inReset]
  · rw [e3, h.pend]
  · rw [e4, h.timer]
  · exact hk
  · rw [e1, hq]; simp
  · rw [e1, hq, e5]; intro o ho; cases ho; exact h.op
  · rw [e1, hq]; simp [Seq.inReset]

theorem AtReturn.placed_verify {c : ByteCall} {s : State} {go : State → State} (h : AtReturn c s)
    (r : Byte) (hg : Placed (go s)) : Placed (verify r go s) := by
  unfold verify
  split
  · exact hg
  · exact h.placed_raise (by simp) rfl rfl rfl rfl rfl

/-- What a call of writeByte is followed by is a legal position (R128, R129, R133 to R135, R170, R180). -/
theorem placed_byteDone {c : ByteCall} {s : State} (r : Byte) (h : AtReturn c s) :
    Placed (byteDone c r s) := by
  have hl := h.lcfg
  have hp := h.pend
  have ht := h.timer
  have ho := h.op
  have plain : ∀ {o : Nibble}, s.work.op = o → o ≠ 0x6#4 → o ≠ 0x7#4 → ∀ w : Work, w.op = s.work.op →
      Placed (finish .ok { s with work := w }) := fun h1 h2 h3 w hw =>
    placed_finish hl hp ht (fun _ =>
      ⟨fun h => absurd (h1.symm.trans (hw.symm.trans h)) h2,
        fun h => absurd (h1.symm.trans (hw.symm.trans h)) h3⟩)
  have jump : ∀ q, (q ≠ .idle ∧ q ≠ .commit) → q.inReset = false →
      (∀ o, q.opcode = some o → s.work.op = o) → byteFits (goto q s) = true →
      (∀ k, q ≠ .cfgNormal k true) → Placed (goto q s) := fun q h1 h2 h3 h4 h5 =>
    placed_goto h1 (by simp [hl, h2]) hp ht h3 h4 h5
  cases c with
  | xbyte => exact plain ho (by decide) (by decide) _ rfl
  | read => exact plain ho (by decide) (by decide) _ rfl
  | write =>
    unfold byteDone
    dsimp only
    split
    · exact plain ho (by decide) (by decide) _ rfl
    · exact h.placed_raise (by simp) rfl rfl rfl rfl rfl
  | romCommand => exact h.placed_verify _ (placed_enterByte hl hp ht ho rfl)
  | tempReadSp => exact h.placed_verify _ (placed_enterByte hl hp ht ho rfl)
  | tempSkip1 =>
    exact h.placed_verify _ (jump _ (by simp) rfl (by intro o e; cases e; exact ho)
      (by simp [byteFits, goto, ByteCall.command, hp]) (by simp))
  | tempSkip2 =>
    exact h.placed_verify _ (jump _ (by simp) rfl (by intro o e; cases e; exact ho)
      (by simp [byteFits, goto, ByteCall.command, hp]) (by simp))
  | tempConvert =>
    exact h.placed_verify _ (jump _ (by simp) rfl (by intro o e; cases e; exact ho)
      (by simp [byteFits, goto]) (by simp))
  | romByte k =>
    unfold byteDone romByteDone
    dsimp only
    split
    · unfold romCheck
      split
      · next g =>
        exact placed_finish hl hp ht (fun _ => ⟨fun _ => g, fun e => by
          simp [ho, ByteCall.opcode] at e⟩)
      · exact h.placed_raise (by simp) rfl rfl rfl rfl rfl
    · exact placed_enterByte hl hp ht ho rfl
  | tempByte k =>
    unfold byteDone tempByteDone
    dsimp only
    split
    · unfold tempCheck
      split
      · exact h.placed_raise (by simp) rfl rfl rfl rfl rfl
      split
      · exact h.placed_raise (by simp) rfl rfl rfl rfl rfl
      split
      · exact h.placed_raise (by simp) rfl rfl rfl rfl rfl
      next g1 g2 g3 =>
      simp only [Bool.not_eq_true', Bool.not_eq_false] at g1 g2 g3
      exact placed_finish hl hp ht (fun _ => ⟨fun e => by simp [ho, ByteCall.opcode] at e,
        fun _ => ⟨g1, g2, g3⟩⟩)
    · exact placed_enterByte hl hp ht ho rfl

/-- What follows a frame that is taken (R125 to R127). -/
theorem placed_txDone {s u : State} {b : Byte} (hi : Invariant s) (hp : s.pend = .tx b)
    (hf : (s.seq.frame s.work).isSome = true)
    (hu : u.seq = s.seq ∧ u.status = s.status ∧ u.pend = .none ∧ u.timer = s.timer ∧
      u.work = s.work) : Placed (txDone u) := by
  obtain ⟨u1, u2, u3, u4, u5⟩ := hu
  have hl := hi.lcfg
  have ho := hi.opcode
  have ht : u.timer = .stopped := u4.trans (timer_stopped_of_pend hi (by simp [hp]))
  rw [← u1] at ho hl hf
  rw [← u5] at ho hf
  rw [← u2] at hl
  cases hq : u.seq <;> simp [hq, Seq.frame] at hf
  · simp only [txDone, hq]
    exact placed_goto (by simp) (by rw [hl, hq]; rfl) u3 ht (by rw [hq] at ho; exact ho) rfl (by simp)
  · simp only [txDone, hq]
    exact placed_goto (by simp) (by rw [hl, hq]; rfl) u3 ht (by rw [hq] at ho; exact ho) rfl (by simp)
  · next c i =>
    have hb : u.work.b = c.operand u.work.d := by
      have hbb := hi.byte
      simp [byteFits, ← u1, hq, hp] at hbb
      rw [u5, hbb]
    simp only [txDone, hq]
    split
    · constructor <;> simp [Seq.inReset, u3, ht, byteFits, hb]
      · simpa [hq, Seq.inReset] using hl
      · intro o h; cases h; exact ho _ (by rw [hq]; rfl)
    · exact placed_goto (by simp) (by rw [hl, hq]; rfl) u3 ht (by rw [hq] at ho; exact ho)
        (by simp [byteFits, goto, hb]) (by simp)

/-- What follows a byte that is received (R125 to R127). -/
theorem placed_rxDone {s u : State} (v : Byte) (hi : Invariant s) (hp : s.pend = .rx)
    (hf : s.seq.receives = true)
    (hu : u.seq = s.seq ∧ u.status = s.status ∧ u.pend = .none ∧ u.timer = s.timer ∧
      u.work = s.work) : Placed (rxDone v u) := by
  obtain ⟨u1, u2, u3, u4, u5⟩ := hu
  have hl := hi.lcfg
  have ho := hi.opcode
  have ht : u.timer = .stopped := u4.trans (timer_stopped_of_pend hi (by simp [hp]))
  rw [← u1] at ho hl hf
  rw [← u5] at ho
  rw [← u2] at hl
  cases hq : u.seq <;> simp [hq, Seq.receives] at hf
  · next c =>
    simp only [rxDone, hq]
    constructor <;> simp [Seq.inReset, u3, ht, byteFits]
    · rw [hl, hq]; rfl
    · intro o h; cases h; exact ho _ (by rw [hq]; rfl)
  · simp only [rxDone, hq]
    have hop := ho 0x2#4 (by rw [hq]; rfl)
    exact placed_finish (lcfg_normal_of_ne (by rw [hl, hq]; simp [Seq.inReset])) u3 ht
      (fun _ => ⟨fun h => by simp [hop] at h, fun h => by simp [hop] at h⟩)
  · next c i =>
    have hb : u.work.b = c.operand u.work.d := by
      have hbb := hi.byte
      simp [byteFits, ← u1, hq] at hbb
      rw [u5, hbb]
    have hln := lcfg_normal_of_ne (s := u) (by rw [hl, hq]; simp [Seq.inReset])
    have hop := ho c.opcode (by rw [hq]; rfl)
    simp only [rxDone, hq]
    split
    · exact placed_byteDone _ ⟨⟨_, rfl⟩, hln, u3, ht, hop, hb⟩
    · constructor <;> simp [Seq.inReset, u3, ht, byteFits, hb, hln]
      · intro o h; cases h; exact hop

/-- What the invariant says of an idle block: IDLE, nothing outstanding, the timer stopped, the line NORMAL
(R31, R42, R48, R211). -/
theorem idle_block {s : State} (hi : Invariant s) (hb : s.status.busy = false) :
    s.seq = .idle ∧ s.pend = .none ∧ s.timer = .stopped ∧ s.status.lcfg = .normal := by
  have hq := hi.idle.2 hb
  have hp : s.pend = .none := by
    have h := hi.pend
    cases hpend : s.pend <;> simp_all [pendFits, Seq.frame, Seq.receives]
  exact ⟨hq, hp, timer_stopped_of_pend hi (by simp [hp]),
    lcfg_normal_of_ne (by rw [hi.lcfg, hq]; simp [Seq.inReset])⟩

end Sys2Proof.Machine
end

