-- ==== Sys2Proof/Laws/PerInstr.lean ====
section
/-! SUPPORT. One law per constructor of `Instr`, about the instruction as syntax: the encoding of a
well-formed instruction fits its row of spec/opcode_table.json, in format, mask and match. -/

namespace Sys2Proof.Laws

/-- The four formats of the opcode table. -/
inductive Format
  | cmd8 | regwr | regrd | busbyte
  deriving DecidableEq, Repr

/-- A row of the opcode table: its format, and the mask and match of its bits. -/
structure Row where
  format : Format
  mask : Byte
  pattern : Byte
  deriving DecidableEq, Repr

/-- The rows of spec/opcode_table.json. -/
def row : Instr → Row
  | .nop => ⟨.cmd8, 0xFF#8, 0x00#8⟩
  | .reset => ⟨.cmd8, 0xFF#8, 0x01#8⟩
  | .wbit => ⟨.cmd8, 0xFF#8, 0x02#8⟩
  | .xbyte => ⟨.cmd8, 0xFF#8, 0x03#8⟩
  | .write => ⟨.cmd8, 0xFF#8, 0x04#8⟩
  | .read => ⟨.cmd8, 0xFF#8, 0x05#8⟩
  | .readrom => ⟨.cmd8, 0xFF#8, 0x06#8⟩
  | .readtemp => ⟨.cmd8, 0xFF#8, 0x07#8⟩
  | .illcmdOpc _ => ⟨.cmd8, 0xF8#8, 0x08#8⟩
  | .illcmdRsv4 _ => ⟨.cmd8, 0x10#8, 0x10#8⟩
  | .illcmdRsv5 _ => ⟨.cmd8, 0x20#8, 0x20#8⟩
  | .illcmdRsv6 _ => ⟨.cmd8, 0x40#8, 0x40#8⟩
  | .illcmdRsv7 _ => ⟨.cmd8, 0x80#8, 0x80#8⟩
  | .crcin _ => ⟨.regwr, 0x1F#8, 0x07#8⟩
  | .crcld _ => ⟨.regwr, 0x1F#8, 0x06#8⟩
  | .crcrd => ⟨.regrd, 0x1F#8, 0x06#8⟩
  | .busResetpulse => ⟨.busbyte, 0xFF#8, 0xF0#8⟩
  | .busSlot1 => ⟨.busbyte, 0xFF#8, 0xFF#8⟩
  | .busSlot0 => ⟨.busbyte, 0xFF#8, 0x00#8⟩
  | .owReadrom => ⟨.busbyte, 0xFF#8, 0x33#8⟩
  | .owSkiprom => ⟨.busbyte, 0xFF#8, 0xCC#8⟩
  | .owConvert => ⟨.busbyte, 0xFF#8, 0x44#8⟩
  | .owReadsp => ⟨.busbyte, 0xFF#8, 0xBE#8⟩

/-- The format of a code, and the byte its row's bits are the bits of: the CMD byte, the window offset, or
the byte on the line. -/
def bits : Code → Format × Byte
  | .write off v => if off = 0x00#5 then (.cmd8, v) else (.regwr, off.setWidth 8)
  | .read off => (.regrd, off.setWidth 8)
  | .frame b => (.busbyte, b)
  | .wire b => (.busbyte, b)

/-- A well-formed instruction's encoding fits its row. -/
def Encoding.Statement (i : Instr) : Prop :=
  i.wf = true → (bits (encode i)).1 = (row i).format ∧
    (bits (encode i)).2 &&& (row i).mask = (row i).pattern

namespace Encoding

theorem nop : Statement .nop := fun _ => ⟨rfl, rfl⟩
theorem reset : Statement .reset := fun _ => ⟨rfl, rfl⟩
theorem wbit : Statement .wbit := fun _ => ⟨rfl, rfl⟩
theorem xbyte : Statement .xbyte := fun _ => ⟨rfl, rfl⟩
theorem write : Statement .write := fun _ => ⟨rfl, rfl⟩
theorem read : Statement .read := fun _ => ⟨rfl, rfl⟩
theorem readrom : Statement .readrom := fun _ => ⟨rfl, rfl⟩
theorem readtemp : Statement .readtemp := fun _ => ⟨rfl, rfl⟩

theorem illcmdOpc (v : Byte) : Statement (.illcmdOpc v) := fun h =>
  ⟨rfl, by simp only [Instr.wf, beq_iff_eq] at h; exact h⟩

theorem illcmdRsv4 (v : Byte) : Statement (.illcmdRsv4 v) := by
  revert v; unfold Statement; decide

theorem illcmdRsv5 (v : Byte) : Statement (.illcmdRsv5 v) := by
  revert v; unfold Statement; decide

theorem illcmdRsv6 (v : Byte) : Statement (.illcmdRsv6 v) := by
  revert v; unfold Statement; decide

theorem illcmdRsv7 (v : Byte) : Statement (.illcmdRsv7 v) := by
  revert v; unfold Statement; decide

theorem crcin (v : Byte) : Statement (.crcin v) := fun _ => by simp [bits, encode, row]
theorem crcld (v : Byte) : Statement (.crcld v) := fun _ => by simp [bits, encode, row]
theorem crcrd : Statement .crcrd := fun _ => ⟨rfl, rfl⟩
theorem busResetpulse : Statement .busResetpulse := fun _ => ⟨rfl, rfl⟩
theorem busSlot1 : Statement .busSlot1 := fun _ => ⟨rfl, rfl⟩
theorem busSlot0 : Statement .busSlot0 := fun _ => ⟨rfl, rfl⟩
theorem owReadrom : Statement .owReadrom := fun _ => ⟨rfl, rfl⟩
theorem owSkiprom : Statement .owSkiprom := fun _ => ⟨rfl, rfl⟩
theorem owConvert : Statement .owConvert := fun _ => ⟨rfl, rfl⟩
theorem owReadsp : Statement .owReadsp := fun _ => ⟨rfl, rfl⟩

end Encoding

end Sys2Proof.Laws
end

