-- ==== Sys2Proof/Tests/Slice0.lean ====
section
/-! SUPPORT. Tests of the model against the spec's own words and vectors (spec/95_test_vectors.md), and a
witness for every statement that has hypotheses: a concrete state and operands that meet them all. -/

namespace Sys2Proof.Tests

open Sys2Proof Sys2Proof.Machine Sys2Proof.Safety

/-- The reset state with a script. -/
def given (l : List Input) : State := { State.reset with inputs := l }

/-- A running command's state: the sequencer at `q`, with a request outstanding or none. -/
def running (q : Seq) (p : Pend) (l : List Input) : State :=
  { State.reset with
    status := { Status.reset with busy := true, lcfg := if q.inReset then .reset else .normal }
    seq := q, pend := p, timer := if p = .wait then .running else .stopped, inputs := l
    work := { Work.reset with op := q.opcode.getD 0x6#4 } }

/-- What a host read of an offset returns after an outcome, if there is a next state. -/
def readAfter (off : Offset) : Host.Outcome State Fault Refusal → Option Byte
  | .next t => some (readReg off t)
  | .fault _ => none
  | .refused _ => none

/-- What is outstanding after an outcome. -/
def pendAfter : Host.Outcome State Fault Refusal → Option Pend
  | .next t => some t.pend
  | .fault _ => none
  | .refused _ => none

/-! ## Well-formedness: the check refuses an ill-formed term of each kind -/

theorem test_wf_opc_refuses_a_command_byte : (Instr.illcmdOpc 0x07#8).wf = false := by decide
theorem test_wf_opc_refuses_a_set_rsv_bit : (Instr.illcmdOpc 0x18#8).wf = false := by decide
theorem test_wf_rsv4_refuses_bit4_clear : (Instr.illcmdRsv4 0x20#8).wf = false := by decide
theorem test_wf_rsv5_refuses_bit5_clear : (Instr.illcmdRsv5 0x40#8).wf = false := by decide
theorem test_wf_rsv5_refuses_an_earlier_row : (Instr.illcmdRsv5 0x30#8).wf = false := by decide
theorem test_wf_rsv6_refuses_bit6_clear : (Instr.illcmdRsv6 0x80#8).wf = false := by decide
theorem test_wf_rsv6_refuses_an_earlier_row : (Instr.illcmdRsv6 0x60#8).wf = false := by decide
theorem test_wf_rsv7_refuses_bit7_clear : (Instr.illcmdRsv7 0x00#8).wf = false := by decide
theorem test_wf_rsv7_refuses_an_earlier_row : (Instr.illcmdRsv7 0xC0#8).wf = false := by decide

/-! ## Decoding: each word written out from the table's encoding column -/

theorem test_decode_nop : decode (.write 0b00000#5 0b00000000#8) = .ok .nop := by decide
theorem test_decode_reset : decode (.write 0b00000#5 0b00000001#8) = .ok .reset := by decide
theorem test_decode_wbit : decode (.write 0b00000#5 0b00000010#8) = .ok .wbit := by decide
theorem test_decode_xbyte : decode (.write 0b00000#5 0b00000011#8) = .ok .xbyte := by decide
theorem test_decode_write : decode (.write 0b00000#5 0b00000100#8) = .ok .write := by decide
theorem test_decode_read : decode (.write 0b00000#5 0b00000101#8) = .ok .read := by decide
theorem test_decode_readrom : decode (.write 0b00000#5 0b00000110#8) = .ok .readrom := by decide
theorem test_decode_readtemp : decode (.write 0b00000#5 0b00000111#8) = .ok .readtemp := by decide
theorem test_decode_opc :
    decode (.write 0b00000#5 0b00001101#8) = .ok (.illcmdOpc 0b00001101#8) := by decide
theorem test_decode_rsv4 :
    decode (.write 0b00000#5 0b10010010#8) = .ok (.illcmdRsv4 0b10010010#8) := by decide
theorem test_decode_rsv5 :
    decode (.write 0b00000#5 0b10100010#8) = .ok (.illcmdRsv5 0b10100010#8) := by decide
theorem test_decode_rsv6 :
    decode (.write 0b00000#5 0b11000010#8) = .ok (.illcmdRsv6 0b11000010#8) := by decide
theorem test_decode_rsv7 :
    decode (.write 0b00000#5 0b10000010#8) = .ok (.illcmdRsv7 0b10000010#8) := by decide
theorem test_decode_crcin : decode (.write 0b00111#5 0x5A#8) = .ok (.crcin 0x5A#8) := by decide
theorem test_decode_crcld : decode (.write 0b00110#5 0x5A#8) = .ok (.crcld 0x5A#8) := by decide
theorem test_decode_crcrd : decode (.read 0b00110#5) = .ok .crcrd := by decide
theorem test_decode_resetpulse : decode (.frame 0b11110000#8) = .ok .busResetpulse := by decide
theorem test_decode_slot1 : decode (.frame 0b11111111#8) = .ok .busSlot1 := by decide
theorem test_decode_slot0 : decode (.frame 0b00000000#8) = .ok .busSlot0 := by decide
theorem test_decode_ow_readrom : decode (.wire 0b00110011#8) = .ok .owReadrom := by decide
theorem test_decode_ow_skiprom : decode (.wire 0b11001100#8) = .ok .owSkiprom := by decide
theorem test_decode_ow_convert : decode (.wire 0b01000100#8) = .ok .owConvert := by decide
theorem test_decode_ow_readsp : decode (.wire 0b10111110#8) = .ok .owReadsp := by decide
theorem test_decode_refuses_a_data_write :
    decode (.write 0b00011#5 0x00#8) = .error (.plainWrite 0b00011#5) := by decide
theorem test_decode_refuses_other_frames : decode (.frame 0x55#8) = .error (.notAFrame 0x55#8) := by
  decide

/-! ## One step per instruction (the vector's number in brackets) -/

/-- BUS-20. -/
theorem test_nop_status : readAfter 0x01#5 (step (given [hostWrite 0x00#5 0x00#8])) = some 0x02#8 := by
  decide

/-- BUS-21: NOP clears ERR; PRES stays 0. -/
theorem test_nop_clears_err : readAfter 0x01#5
    (exec .nop { State.reset with status := { Status.reset with done := true, err := true } }) =
    some 0x02#8 := by decide

/-- ACC-1, ACC-2, ACC-3. -/
theorem test_illegal_result : readAfter 0x02#5 (step (given [hostWrite 0x00#5 0x08#8])) = some 0x08#8 ∧
    readAfter 0x02#5 (step (given [hostWrite 0x00#5 0x10#8])) = some 0x08#8 ∧
    readAfter 0x02#5 (step (given [hostWrite 0x00#5 0xFF#8])) = some 0x08#8 := by decide

theorem test_illegal_status : readAfter 0x01#5 (step (given [hostWrite 0x00#5 0x08#8])) = some 0x06#8 ∧
    readAfter 0x01#5 (step (given [hostWrite 0x00#5 0x20#8])) = some 0x06#8 ∧
    readAfter 0x01#5 (step (given [hostWrite 0x00#5 0x80#8])) = some 0x06#8 := by decide

/-- R46: a started command reads BUSY, and a second one sets CMDERR (ACC-4). -/
theorem test_reset_starts : readAfter 0x01#5 (exec .reset State.reset) = some 0x01#8 := by decide

theorem test_reset_while_busy :
    readAfter 0x01#5 (exec .reset (running .wait .wait [])) = some 0x41#8 := by decide

/-- BUS-7: DATA = 0x01 sends 0xFF; BUS-9: DATA = 0xFE sends 0x00. -/
theorem test_wbit_frame :
    pendAfter (step { running .txBit .none [] with work.d := 0x01#8 }) = some (.tx 0xFF#8) ∧
    pendAfter (step { running .txBit .none [] with work.d := 0xFE#8 }) = some (.tx 0x00#8) := by
  decide

/-- BUS-8: the echo 0x3E is a 0. -/
theorem test_wbit_echo :
    (rxDone 0x3E#8 (running .rxBit .none [])).work.sRx = 0x00#8 ∧
    (rxDone 0x3F#8 (running .rxBit .none [])).work.sRx = 0x01#8 := by decide

/-- BUS-10: DATA is latched, and its echoes read back as 0xA5. -/
theorem test_xbyte_latches :
    (match exec .xbyte { State.reset with data := 0xA5#8 } with
      | .next t => t.work.d == 0xA5#8 && t.work.b == 0xA5#8
      | _ => false) = true := by decide

theorem test_xbyte_readback :
    readback [0x3F#8, 0x00#8, 0x3F#8, 0x00#8, 0x00#8, 0x3F#8, 0x00#8, 0x3F#8] = 0xA5#8 := by decide

/-- BUS-13: readback 0x32 of 0x33 is NODEV_WRITE, and RXDATA is staged all the same. -/
theorem test_write_mismatch :
    (byteDone .write 0x32#8 { running (.rxByte .write 7) .none [] with work.d := 0x33#8 }).work.sCode =
      .nodevWrite ∧
    (byteDone .write 0x32#8 { running (.rxByte .write 7) .none [] with work.d := 0x33#8 }).work.sRxv =
      true := by decide

theorem test_write_match :
    (byteDone .write 0x33#8 { running (.rxByte .write 7) .none [] with work.d := 0x33#8 }).work.sCode =
      .ok := by decide

/-- BUS-18: READ sends 0xFF whatever DATA holds. -/
theorem test_read_sends_ones :
    (match exec .read { State.reset with data := 0x12#8 } with
      | .next t => t.work.b == 0xFF#8
      | _ => false) = true := by decide

/-- R127: the slot sent is bit i of the byte, bit 0 first; 0x33 is FF FF 00 00 FF FF 00 00. -/
theorem test_slot_order :
    (List.finRange 8).map (fun i => (Seq.txByte .write i).frame { Work.reset with b := 0x33#8 }) =
      [some 0xFF#8, some 0xFF#8, some 0x00#8, some 0x00#8, some 0xFF#8, some 0xFF#8, some 0x00#8,
        some 0x00#8] := by decide

/-- BUS-1, BUS-2, BUS-3: the reset echoes 0x90, 0x00 and 0xF0. -/
theorem test_reset_echoes :
    presence 0x90#8 = true ∧ presence 0x00#8 = false ∧ presence 0xF0#8 = false := by decide

/-- R46: acceptance of READROM clears ROMV, and of READTEMP TEMPV, each only its own. -/
theorem test_readrom_clears_romv : readAfter 0x01#5 (exec .readrom
    { State.reset with status := { Status.reset with romv := true, tempv := true } }) =
    some 0x21#8 := by decide

theorem test_readtemp_clears_tempv : readAfter 0x01#5 (exec .readtemp
    { State.reset with status := { Status.reset with romv := true, tempv := true } }) =
    some 0x11#8 := by decide

/-- ROM-1 and ROM-2. -/
theorem test_rom_check :
    romCrcOk #v[0x28#8, 0x01#8, 0x02#8, 0x03#8, 0x04#8, 0x05#8, 0x06#8, 0x9E#8] = true ∧
    romCrcOk #v[0x28#8, 0x01#8, 0x02#8, 0x03#8, 0x04#8, 0x05#8, 0x06#8, 0x9F#8] = false := by
  decide +kernel

/-- TMP-1, TMP-5, TMP-11, TMP-12, TMP-13. -/
theorem test_temp_results :
    tempResult #v[0x91#8, 0x01#8, 0x4B#8, 0x46#8, 0x7F#8, 0xFF#8, 0x0F#8, 0x10#8, 0x25#8] = 0x00#8 ∧
    tempResult #v[0xED#8, 0xEE#8, 0x4B#8, 0x46#8, 0x7F#8, 0xFF#8, 0x0F#8, 0x10#8, 0x52#8] = 0x07#8 ∧
    tempResult #v[0x91#8, 0x01#8, 0x4B#8, 0x46#8, 0xBF#8, 0xFF#8, 0x0F#8, 0x10#8, 0x1D#8] = 0x04#8 ∧
    tempResult #v[0x91#8, 0x01#8, 0x4B#8, 0x46#8, 0x7F#8, 0xFF#8, 0x0F#8, 0x10#8, 0x24#8] = 0x03#8 ∧
    tempResult #v[0xED#8, 0xEE#8, 0x4B#8, 0x46#8, 0x7F#8, 0xFF#8, 0x0F#8, 0x10#8, 0x53#8] = 0x03#8 := by
  decide +kernel

/-- CRC-16 and CRC-17. -/
theorem test_crcin : readAfter 0x06#5 (step (given [hostWrite 0x07#5 0x01#8])) = some 0x5E#8 := by
  decide +kernel

theorem test_crcin_from_e1 :
    readAfter 0x06#5 (exec (.crcin 0x01#8) { State.reset with crc := 0xE1#8 }) = some 0xE9#8 := by
  decide +kernel

theorem test_crcld : readAfter 0x06#5 (step (given [hostWrite 0x06#5 0xE1#8])) = some 0xE1#8 := by
  decide

/-- CRC-18: CRCIN reads 0x00, and CRC is read back by CRCRD. -/
theorem test_crcrd :
    (match exec .crcrd { State.reset with crc := 0x5E#8 } with
      | .next t => t.rdata == some 0x5E#8 && readReg 0x07#5 t == 0x00#8
      | _ => false) = true := by decide

/-- R95 and the table of 95_test_vectors.md section 2: the first frames of 0x33, 0xCC, 0x44 and 0xBE. -/
theorem test_bus_frames :
    pendAfter (exec .busResetpulse State.reset) = some (.tx 0xF0#8) ∧
    pendAfter (exec .busSlot1 State.reset) = some (.tx 0xFF#8) ∧
    pendAfter (exec .busSlot0 State.reset) = some (.tx 0x00#8) := by decide

theorem test_ow_first_frames :
    pendAfter (exec .owReadrom State.reset) = some (.tx 0xFF#8) ∧
    pendAfter (exec .owSkiprom State.reset) = some (.tx 0x00#8) ∧
    pendAfter (exec .owConvert State.reset) = some (.tx 0x00#8) ∧
    pendAfter (exec .owReadsp State.reset) = some (.tx 0x00#8) := by decide

/-- ACC-8: writes of read-only and reserved offsets have no effect, and a reserved offset reads 0x00. -/
theorem test_read_only_writes :
    readAfter 0x01#5 (step (given [hostWrite 0x01#5 0xFF#8])) = some 0x00#8 ∧
    readAfter 0x02#5 (step (given [hostWrite 0x02#5 0x55#8])) = some 0x00#8 ∧
    readAfter 0x19#5 (step (given [hostWrite 0x19#5 0xAA#8])) = some 0x00#8 := by decide

/-- R102: an offset written as a number, reserved ones too, is the access a name would be (ACC-8's accesses as
host statements). -/
theorem test_numeric_offsets :
    hostProgram [.sb (.number 0x19) 0xAA#8, .lb (.number 0x1F)] =
      [hostWrite 0x19#5 0xAA#8, hostRead1 0x1F#5] ∧
    hostProgram [.sb (.number 0x03) 0xA5#8, .lb (.number 0x18)] =
      hostProgram [.sb (.reg .data) 0xA5#8, .lb (.reg (.sp 8))] := by decide

/-- R62, R102: a number outside the window is an access that is refused. -/
theorem test_numeric_offset_outside :
    step (given (hostProgram [.lb (.number 0x20)])) = .refused (.accessOutsideWindow 0x20) := rfl

/-- ACC-10: a block reset inside a bus reset makes LCFG 0 at once. -/
theorem test_block_reset_lcfg :
    readAfter 0x01#5 (step (running (.rxEcho .cmd) .rx [.blockReset])) = some 0x00#8 := by decide

/-- R123: 800 ms ends the Wait, 799 ms does not. -/
theorem test_wait_bound :
    pendAfter (step (running .wait .wait [.timer 800])) = some .none ∧
    pendAfter (step (running .wait .wait [.timer 799])) = some .wait := by decide

/-! ## The table's words -/

theorem test_table_words :
    decodeTableWord 8 0x06 = some .readrom ∧ decodeTableWord 8 0xF0 = some .busResetpulse ∧
    decodeTableWord 8 0x33 = some .owReadrom ∧ decodeTableWord 8 0x27 = some (.crcin 0x00#8) ∧
    decodeTableWord 8 0x0F = some (.illcmdOpc 0x0F#8) ∧ decodeTableWord 16 0x00 = none := by decide

/-! ## Witnesses: each statement's hypotheses are met -/

theorem test_witness_DecodeOfEncode :
    (Instr.illcmdOpc 0x08#8).wf = true ∧ (Instr.illcmdOpc 0x0F#8).wf = true ∧
    (Instr.illcmdRsv4 0x10#8).wf = true ∧ (Instr.illcmdRsv5 0xEF#8).wf = true ∧
    (Instr.illcmdRsv6 0xCF#8).wf = true ∧ (Instr.illcmdRsv7 0x8F#8).wf = true ∧
    Instr.readtemp.wf = true ∧ (Instr.crcin 0xFF#8).wf = true ∧ Instr.owReadsp.wf = true := by decide

theorem test_witness_EncodeOfDecode :
    decode (.write 0x00#5 0xFF#8) = .ok (.illcmdRsv4 0xFF#8) ∧
    decode (.write 0x07#5 0x00#8) = .ok (.crcin 0x00#8) ∧ decode (.read 0x06#5) = .ok .crcrd ∧
    decode (.frame 0x00#8) = .ok .busSlot0 ∧ decode (.wire 0xBE#8) = .ok .owReadsp := by decide

theorem test_witness_OpcodeMapOfCmd : 8 ≤ (0x08#8 : Byte).toNat ∧ 8 ≤ (0xFF#8 : Byte).toNat := by decide

theorem test_witness_StepRuns :
    fetch (given [hostWrite 0x00#5 0x07#8]) = some (.write 0x00#5 0x07#8) ∧
    decode (.write 0x00#5 0x07#8) = .ok .readtemp ∧
    fetch (running (.txPulse .cmd) .none []) = some (.frame 0xF0#8) ∧
    decode (.frame 0xF0#8) = .ok .busResetpulse ∧
    fetch (running (.txByte .romCommand 0) .none [.tick]) = some (.wire 0x33#8) ∧
    decode (.wire 0x33#8) = .ok .owReadrom := by decide

theorem test_witness_HostAccess :
    (given [hostWrite 0x00#5 0x01#8]).inputs = hostWrite 0x00#5 0x01#8 :: [] ∧
    (given [hostWrite 0x06#5 0x01#8]).inputs = hostWrite 0x06#5 0x01#8 :: [] ∧
    (given [hostWrite 0x07#5 0x01#8]).inputs = hostWrite 0x07#5 0x01#8 :: [] ∧
    (given [hostRead1 0x06#5]).inputs = hostRead1 0x06#5 :: [] := ⟨rfl, rfl, rfl, rfl⟩

/-- Every clause of SendingPositionsRunTheirInstruction, with an empty script and with a tick. -/
theorem test_witness_SendingPositions :
    ∀ q ∈ [Seq.txPulse .rom, .txBit, .txByte .xbyte 0, .txByte .romCommand 7, .txByte .romCommand 0,
        .txByte .tempSkip1 0, .txByte .tempSkip2 0, .txByte .tempConvert 0, .txByte .tempReadSp 0],
      ((running q .none []).inputs = [] ∧ (running q .none [.tick]).inputs = .tick :: []) ∧
      (running q .none []).pend = .none ∧ (running q .none []).seq = q := by decide

theorem test_witness_SendingPositions_side :
    ByteCall.xbyte.command = none ∧ (7 : Fin 8) ≠ 0 := by decide

/-- Both sides of each bound: offsets 31 and 32, widths 0, 1 and 2. -/
theorem test_witness_OnlyByteAccesses :
    accessCode (.write 31 [0x5A#8]) = .ok (.write 0x1F#5 0x5A#8) ∧
    accessCode (.write 32 [0x5A#8]) = .error (.accessOutsideWindow 32) ∧
    accessCode (.write 31 []) = .error (.accessWidth 0) ∧
    accessCode (.write 0 [0x00#8, 0x00#8]) = .error (.accessWidth 2) ∧
    accessCode (.read 31 1) = .ok (.read 0x1F#5) ∧
    accessCode (.read 32 1) = .error (.accessOutsideWindow 32) ∧
    accessCode (.read 0 0) = .error (.accessWidth 0) ∧
    accessCode (.read 0 2) = .error (.accessWidth 2) := by decide

theorem test_witness_OnlyByteAccesses_scripts (a : Access) :
    (given [.host a]).inputs = .host a :: [] := rfl

theorem test_witness_HostRead (off : Offset) :
    (given [hostRead1 off]).inputs = hostRead1 off :: [] := rfl

theorem test_witness_reserved_bounds :
    0x19 ≤ (0x19#5 : Offset).toNat ∧ 0x19 ≤ (0x1F#5 : Offset).toNat ∧
    8 ≤ (0x08#5 : Offset).toNat ∧ ¬ 0x19 ≤ (0x18#5 : Offset).toNat := by decide

/-- PlainWrites and ReservedOffsets: a script that begins with the access. -/
theorem test_witness_PlainWrites (off : Offset) (v : Byte) :
    (given [hostWrite off v]).inputs = hostWrite off v :: [] := rfl

theorem test_witness_Poll :
    (running .wait .wait [.poll]).inputs = .poll :: [] ∧ (running .wait .wait [.poll]).status.busy = true ∧
    (given [.poll]).inputs = .poll :: [] ∧ (given [.poll]).status.busy = false := by decide

/-- NopCommitsOk, IllegalBytes…, IllcmdInstructions…, CommandsStart, CommandsWhileBusy…: an idle and a busy
state, and the first and last illegal byte. -/
theorem test_witness_acceptance :
    State.reset.status.busy = false ∧ (running .txBit .none []).status.busy = true ∧
    8 ≤ (0x08#8 : Byte).toNat ∧ 8 ≤ (0xFF#8 : Byte).toNat := by decide

theorem test_witness_CommandWrites :
    (∃ t, exec .readtemp State.reset = .next t) ∧ ∃ t, exec .reset (running .wait .wait []) = .next t :=
  ⟨exec_next _ _, exec_next _ _⟩

theorem test_witness_AgentsIgnore : AgentsOwn (running (.txPulse .cmd) .none [.tick]) := by
  constructor <;> intros <;> simp [running]

theorem test_witness_DataAndCrc :
    (∃ t, step (given [hostWrite 0x03#5 0x5A#8]) = .next t ∧ t.data ≠ 0x00#8) ∧
    (∃ t, step (given [hostWrite 0x06#5 0x5A#8]) = .next t ∧ t.crc ≠ 0x00#8) ∧
    (∃ t, step (given [hostWrite 0x07#5 0x01#8]) = .next t ∧ t.crc ≠ 0x00#8) :=
  ⟨⟨_, rfl, by decide⟩, ⟨_, rfl, by decide⟩, ⟨_, rfl, by decide +kernel⟩⟩

/-! ### States that meet the invariant -/

/-- The reset state meets the invariant whatever its script. -/
theorem given_invariant (l : List Input) : Invariant (given l) := by
  constructor <;> simp [given, State.reset, Status.reset, Work.reset, Seq.inReset, Seq.opcode, pendFits, byteFits]

/-- A state `running` builds meets the invariant when its position and request fit. -/
theorem running_invariant {q : Seq} {p : Pend} (l : List Input) (hq : q ≠ .idle) (hc : q ≠ .commit)
    (hr : ∀ c, q ≠ .cfgNormal c true) (hp : pendFits (running q p l) = true)
    (hb : byteFits (running q p l) = true) : Invariant (running q p l) := by
  constructor
  case idle => simp [running, hq]
  case lcfg => cases h : q.inReset <;> simp [running, h]
  case pend => exact hp
  case timer => by_cases h : p = .wait <;> simp [running, h]
  case opcode => intro o ho; simp only [running] at ho ⊢; rw [ho]; rfl
  case byte => exact hb
  case raised => intro c h; exact absurd h (hr c)
  case romCommit => intro h; exact absurd h hc
  case tempCommit => intro h; exact absurd h hc
  all_goals simp [running, State.reset, Status.reset]

theorem test_witness_Frames_reset :
    Invariant (running (.txPulse .cmd) (.tx 0xF0#8) []) ∧
    (running (.txPulse .cmd) (.tx 0xF0#8) []).pend = .tx 0xF0#8 :=
  ⟨running_invariant _ (by decide) (by decide) (by simp) (by decide) (by decide), rfl⟩

theorem test_witness_Frames_slot :
    Invariant (running (.txByte .xbyte 7) (.tx 0x00#8) []) ∧
    (running (.txByte .xbyte 7) (.tx 0x00#8) []).seq = .txByte .xbyte 7 :=
  ⟨running_invariant _ (by decide) (by decide) (by simp) (by decide) (by decide), rfl⟩

/-- FailedRequestsRaise, inside busReset's try: a frame and an echo, each with both failures. -/
theorem test_witness_Failed_inside :
    Invariant (running (.txPulse .rom) (.tx 0xF0#8) [.tx .timeout]) ∧
    Invariant (running (.txPulse .rom) (.tx 0xF0#8) [.tx .ioError]) ∧
    Invariant (running (.rxEcho .temp2) .rx [.rx .timeout]) ∧
    Invariant (running (.rxEcho .temp2) .rx [.rx .ioError]) := by
  refine ⟨?_, ?_, ?_, ?_⟩ <;> exact running_invariant _ (by decide) (by decide) (by simp) (by decide) (by decide)

/-- FailedRequestsRaise, outside it: a slot's frame and its echo. -/
theorem test_witness_Failed_outside :
    Invariant (running .txBit (.tx 0x00#8) [.tx .timeout]) ∧
    Invariant (running .txBit (.tx 0x00#8) [.tx .ioError]) ∧
    Invariant (running .rxBit .rx [.rx .timeout]) ∧ Invariant (running .rxBit .rx [.rx .ioError]) ∧
    (∀ c, (running .txBit (.tx 0x00#8) []).seq ≠ .txPulse c ∧
      (running .txBit (.tx 0x00#8) []).seq ≠ .rxEcho c) := by
  refine ⟨?_, ?_, ?_, ?_, fun c => by constructor <;> simp [running]⟩ <;>
    exact running_invariant _ (by decide) (by decide) (by simp) (by decide) (by decide)

theorem test_witness_Unasked :
    (∀ b, (given [.tx .ok]).pend ≠ .tx b) ∧ (given [.rx (.byte 0x00#8)]).pend ≠ .rx ∧
    (given [.timer 800]).pend ≠ .wait :=
  ⟨fun b => by simp [given, State.reset], by decide, by decide⟩

theorem test_witness_WaitEnds :
    (running .wait .wait [.timer 800]).pend = .wait ∧ (running .wait .wait [.timer 800]).seq = .wait ∧
    800 ≤ 800 ∧ 799 < 800 := by decide

theorem test_witness_NothingCancels :
    (running .wait .wait [.poll]).pend = .wait ∧ (running .wait .wait [.poll]).seq = .wait ∧
    (running .wait .wait [.poll]).status.busy = true ∧
    (∃ t, step (running .wait .wait [.poll]) = .next t) ∧
    (running .wait .wait [.poll]).inputs ≠ [] ∧
    (∀ rest, (running .wait .wait [.poll]).inputs ≠ .tick :: rest) ∧
    (∀ ms rest, (running .wait .wait [.poll]).inputs ≠ .timer ms :: rest) ∧
    (∀ rest, (running .wait .wait [.poll]).inputs ≠ .blockReset :: rest) :=
  ⟨rfl, rfl, rfl, ⟨_, rfl⟩, by simp [running], by simp [running], by simp [running], by simp [running]⟩

theorem test_witness_Commit :
    (running .commit .none [.tick]).seq = .commit ∧ (running .commit .none [.tick]).pend = .none ∧
    (running .commit .none [.tick]).inputs = .tick :: [] := by decide

/-! ### Whole commands -/

/-- A whole command's hypotheses on the state: an idle block whose script begins as the statement says
(ResetCommandRuns, FailedReset…, Wbit…, XbyteAndRead…, Write…, Readrom…, Readtemp…). -/
theorem test_witness_idle_script (l : List Input) :
    (given l).status.busy = false ∧ (given l).pend = .none ∧ (given l).inputs = l := ⟨rfl, rfl, rfl⟩

/-- The echoes of a byte by the convention of 95_test_vectors.md section 2. -/
def echoes (b : Byte) : Vector Byte 8 :=
  Vector.ofFn fun i => if b.getLsbD i.val then 0x3F#8 else 0x00#8

/-- Confirmed and unconfirmed command bytes, and echoes that show presence or not. -/
theorem test_witness_echoes :
    readback (echoes 0x33#8).toList = 0x33#8 ∧ readback (echoes 0xCC#8).toList = 0xCC#8 ∧
    readback (echoes 0x44#8).toList = 0x44#8 ∧ readback (echoes 0xBE#8).toList = 0xBE#8 ∧
    readback (echoes 0x32#8).toList ≠ 0x33#8 ∧ readback (echoes 0x4C#8).toList ≠ 0xCC#8 ∧
    readback (echoes 0x45#8).toList ≠ 0x44#8 ∧ readback (echoes 0xBF#8).toList ≠ 0xBE#8 ∧
    (0x90#8 : Byte) ≠ 0x00#8 ∧ (0x90#8 : Byte) ≠ 0xF0#8 := by
  decide

/-- WriteCommandRuns: both outcomes of the comparison. -/
theorem test_witness_Write :
    readback (echoes 0x33#8).toList = { State.reset with data := 0x33#8 }.data ∧
    readback (echoes 0x32#8).toList ≠ { State.reset with data := 0x33#8 }.data := by decide

theorem test_witness_FailedReset :
    (TxAnswer.timeout = .timeout ∧ (0x05#8 : Byte) = 0x05#8) ∧ RxAnswer.ioError = .ioError := by decide

theorem test_witness_BlockReset :
    (running .wait .wait [.blockReset]).inputs = .blockReset :: [] := rfl

/-! ### Whole-machine statements -/

theorem test_witness_StepKeepsInv :
    Invariant (running .wait .wait [.timer 800]) ∧
    ∃ t, step (running .wait .wait [.timer 800]) = .next t :=
  ⟨running_invariant _ (by decide) (by decide) (by simp) (by decide) (by decide), ⟨_, rfl⟩⟩

theorem test_witness_MachineGoesOn :
    Invariant (running .wait .wait []) ∧
    ∀ a rest, (running .wait .wait []).inputs = .host a :: rest → ∃ c, accessCode a = .ok c :=
  ⟨running_invariant _ (by decide) (by decide) (by simp) (by decide) (by decide), by
    intro a rest h; simp [running] at h⟩

/-- EveryCommandEnds, with READTEMP at its start. -/
theorem test_witness_EveryCommandEnds :
    Invariant (running (.cfgReset .temp1) .none []) ∧ (running (.cfgReset .temp1) .none []).inputs = [] :=
  ⟨running_invariant _ (by decide) (by decide) (by simp) (by decide) (by decide), rfl⟩

/-- BuffersChangeOnlyAtCommit: a commit that changes ROM, one that changes SP, one that changes RXDATA. -/
theorem test_witness_Buffers_rom :
    ∃ t, step { running .commit .none [] with work.sRom := Vector.replicate 8 0xFF#8 } = .next t ∧
      t.rom ≠ State.reset.rom := ⟨_, rfl, by decide⟩

theorem test_witness_Buffers_sp :
    ∃ t, step { running .commit .none [] with
        work := { Work.reset with op := 0x7#4, sSp := Vector.replicate 9 0xFF#8 } } = .next t ∧
      t.sp ≠ State.reset.sp := ⟨_, rfl, by decide⟩

theorem test_witness_Buffers_rxdata :
    ∃ t, step { running .commit .none [] with
        work := { Work.reset with op := 0x2#4, sRx := 0x01#8, sRxv := true } } = .next t ∧
      t.rxdata ≠ State.reset.rxdata := ⟨_, rfl, by decide⟩

theorem test_witness_ResultsHidden :
    (running .txBit .none []).status.busy = true ∧
    ∃ t, step (running .txBit .none []) = .next t ∧ t.status.busy = true := ⟨rfl, _, rfl, rfl⟩

/-- LcfgWrittenOnlyByLineCfg: each of its three ways. -/
theorem test_witness_Lcfg :
    (∃ t, step (running (.cfgReset .cmd) .none []) = .next t ∧ t.status.lcfg ≠ .normal) ∧
    (∃ t, step (running (.cfgNormal .cmd true) .none []) = .next t ∧ t.status.lcfg ≠ .reset) ∧
    (∃ t, step (running (.rxEcho .cmd) .rx [.blockReset]) = .next t ∧ t.status.lcfg ≠ .reset) :=
  ⟨⟨_, rfl, by decide⟩, ⟨_, rfl, by decide⟩, ⟨_, rfl, by decide⟩⟩

/-- CmderrIsSticky: set by a command while busy, cleared by an accepted one, cleared by block reset. -/
theorem test_witness_Cmderr :
    (∃ t, step (running .wait .wait [hostWrite 0x00#5 0x01#8]) = .next t ∧ t.status.cmderr = true) ∧
    (∃ t, step { given [hostWrite 0x00#5 0x00#8] with status.cmderr := true } = .next t ∧
      t.status.cmderr = false) ∧
    (∃ t, step { given [.blockReset] with status.cmderr := true } = .next t ∧
      t.status.cmderr = false) := ⟨⟨_, rfl, rfl⟩, ⟨_, rfl, rfl⟩, ⟨_, rfl, rfl⟩⟩

/-- IdleBlockKeepsItsResults: an idle block with an empty script, with a tick, and with a host access that is no
CMD write. -/
theorem test_witness_Idle :
    Invariant (given []) ∧ Invariant (given [.tick]) ∧ Invariant (given [hostWrite 0x06#5 0xA5#8]) ∧
    (given [.tick]).status.busy = false ∧ (∃ t, step (given [hostWrite 0x06#5 0xA5#8]) = .next t) ∧
    (∀ v rest, (given [hostWrite 0x06#5 0xA5#8]).inputs ≠ hostWrite 0x00#5 v :: rest) ∧
    ∀ rest, (given [hostWrite 0x06#5 0xA5#8]).inputs ≠ .blockReset :: rest :=
  ⟨given_invariant _, given_invariant _, given_invariant _, rfl, ⟨_, rfl⟩,
    by intro v rest h; simp [given, hostWrite] at h, by intro rest h; simp [given, hostWrite] at h⟩

end Sys2Proof.Tests
end

section
/-! What one step can do to the registers the host reads, read off `step_cases` once. -/

namespace Sys2Proof.Machine

variable {s t : State}

/-! ## A CMD write (R46) -/

/-- A commit inside acceptance commits no buffer and no exchange, so it leaves RXDATA, ROM and SP. -/
theorem commit_latch_buffers {opc : Nibble} {c : ResultCode} (hc : c = .ok ∧ opc = 0x0#4 ∨ c = .illCmd)
    (s : State) :
    (commit c (latch opc s)).rxdata = s.rxdata ∧ (commit c (latch opc s)).rom = s.rom ∧
      (commit c (latch opc s)).sp = s.sp := by
  obtain ⟨hrom, htemp⟩ := no_buffer_commit hc
  simp [commit, latch, hrom, htemp]

theorem CmdWrite.eq_of_busy (h : CmdWrite s t) (hb : s.status.busy = true) :
    t = { s with status.cmderr := true } := by
  cases h
  case rejected => rfl
  all_goals simp_all

/-- CMDERR after a CMD write: set by a rejected one, cleared by an accepted one (R30). -/
theorem CmdWrite.cmderr (h : CmdWrite s t) : t.status.cmderr = s.status.busy := by
  cases h with
  | rejected hb | ended hb | reset hb | bit hb | byte hb | rom hb | temp hb => exact hb.symm

theorem CmdWrite.lcfg (h : CmdWrite s t) : t.status.lcfg = s.status.lcfg := by
  cases h <;> rfl

theorem CmdWrite.data (h : CmdWrite s t) : t.data = s.data := by cases h <;> rfl

theorem CmdWrite.crc (h : CmdWrite s t) : t.crc = s.crc := by cases h <;> rfl

theorem CmdWrite.buffers (h : CmdWrite s t) : t.rxdata = s.rxdata ∧ t.rom = s.rom ∧ t.sp = s.sp := by
  cases h with
  | ended _ _ _ hc => exact commit_latch_buffers hc s
  | rejected | reset | bit | byte | rom | temp => exact ⟨rfl, rfl, rfl⟩

/-! ## Any step -/

/-- `t` has every register of `s` that the host can read. -/
structure SameRegs (s t : State) : Prop where
  status : t.status = s.status
  result : t.result = s.result
  data : t.data = s.data
  rxdata : t.rxdata = s.rxdata
  echo : t.echo = s.echo
  crc : t.crc = s.crc
  rom : t.rom = s.rom
  sp : t.sp = s.sp

theorem SameRegs.trans {u : State} (h : SameRegs s t) (k : SameRegs t u) : SameRegs s u :=
  ⟨k.status.trans h.status, k.result.trans h.result, k.data.trans h.data, k.rxdata.trans h.rxdata,
    k.echo.trans h.echo, k.crc.trans h.crc, k.rom.trans h.rom, k.sp.trans h.sp⟩

theorem Keeps.sameRegs (k : Keeps s t) : SameRegs s t :=
  ⟨k.status, k.result, k.data, k.rxdata, k.echo, k.crc, k.rom, k.sp⟩

/-- What a step from `s` can do to the registers: `StepCase` with the steps that leave them all alone
put together. -/
inductive RegStep (s : State) : State → Prop
  | cmd (v : Byte) (l : List Input) (t : State) (h : s.inputs = .host (.write 0 [v]) :: l)
      (ht : CmdWrite { s with inputs := l } t) : RegStep s t
  | data (v : Byte) (l : List Input) (h : s.inputs = .host (.write 3 [v]) :: l) :
      RegStep s { s with inputs := l, data := v }
  | crc (v : Byte) (l : List Input) (h : s.inputs = .host (.write 6 [v]) :: l) :
      RegStep s { s with inputs := l, crc := v }
  | crcin (v : Byte) (l : List Input) (h : s.inputs = .host (.write 7 [v]) :: l) :
      RegStep s { s with inputs := l, crc := crc8Byte s.crc v }
  | blockReset (l : List Input) (h : s.inputs = .blockReset :: l) :
      RegStep s (blockReset { s with inputs := l })
  | commit (l : List Input) (hq : s.seq = .commit) :
      RegStep s (commit s.work.sCode { s with inputs := l })
  | lineReset (c : ResetCall) (t : State) (hq : s.seq = .cfgReset c)
      (k : SameRegs (lineCfg .reset s) t) : RegStep s t
  | lineNormal (c : ResetCall) (raised : Bool) (t : State) (hq : s.seq = .cfgNormal c raised)
      (k : SameRegs (lineCfg .normal s) t) : RegStep s t
  | same (t : State) (k : SameRegs s t) : RegStep s t

theorem sequencerStep_regStep (s : State) (l : List Input) :
    RegStep s (sequencerStep { s with inputs := l }) := by
  have line (m : LineCfg) : SameRegs (lineCfg m s) (lineCfg m { s with inputs := l }) := by
    constructor <;> rfl
  rcases sequencerStep_cases { s with inputs := l } with ⟨hq, e⟩ | ⟨c, hq, k⟩ | ⟨c, r, hq, k⟩ | k
  · rw [e]; exact .commit l hq
  · exact .lineReset c _ hq ((line .reset).trans k.sameRegs)
  · exact .lineNormal c r _ hq ((line .normal).trans k.sameRegs)
  · exact .same _ (SameRegs.trans (by constructor <;> rfl) k.sameRegs)

/-- Every step does one of those. -/
theorem step_regStep (h : step s = .next t) : RegStep s t := by
  have answered {l : List Input} {n : Nat} {u : State}
      (k : Keeps { s with inputs := l, draws := n, pend := .none } u) : RegStep s u :=
    .same u (SameRegs.trans (by constructor <;> rfl) k.sameRegs)
  cases step_cases h with
  | cmd v l _ hin ht => exact .cmd v l t hin ht
  | data v l hin => exact .data v l hin
  | crc v l hin => exact .crc v l hin
  | crcin v l hin => exact .crcin v l hin
  | blockReset l hin => exact .blockReset l hin
  | seq l => exact sequencerStep_regStep s l
  | taken => exact answered (keeps_txDone _)
  | received => exact answered (keeps_rxDone _ _)
  | failed => exact answered (keeps_raiseFail _ _)
  | read | quiet | frame | command | waited => exact .same _ (by constructor <;> rfl)

end Sys2Proof.Machine
end

section
/-! Every step keeps the invariant: one lemma per kind of `StepCase`. -/

namespace Sys2Proof.Machine

open Sys2Proof.Safety

variable {s t : State}

/-! ## States with an idle sequencer -/

/-- The invariant of a block that runs no command: only the flags, the code and the buffers remain. -/
theorem invariant_of_idle (hq : t.seq = .idle) (hb : t.status.busy = false)
    (hl : t.status.lcfg = .normal) (hp : t.pend = .none) (ht : t.timer = .stopped)
    (herr : t.status.done = true → (t.status.err = true ↔ t.result ≠ 0x00#8))
    (hdone : t.status.err = true → t.status.done = true) (hres : t.result.toNat ≤ 8)
    (hrom : t.status.romv = true → romCrcOk t.rom = true)
    (htemp : t.status.tempv = true →
      cfgOk t.sp[4] = true ∧ spCrcOk t.sp = true ∧ aboveAbsZero (trawOf t.sp) = true) :
    Invariant t where
  idle := by simp [hq, hb]
  lcfg := by simp [hq, hl, Seq.inReset]
  pend := by simp [pendFits, hp]
  timer := by simp [hp, ht]
  opcode := by simp [hq, Seq.opcode]
  byte := by simp [byteFits, hq]
  raised := by simp [hq]
  running := by simp [hb]
  err := herr
  errDone := hdone
  result := hres
  romv := hrom
  tempv := htemp
  romBusy := by simp [hb]
  tempBusy := by simp [hb]
  romCommit := by simp [hq]
  tempCommit := by simp [hq]

theorem invariant_blockReset (s : State) : Invariant (blockReset s) :=
  invariant_of_idle rfl rfl rfl rfl rfl nofun nofun (Nat.zero_le 8) nofun nofun

theorem codeByte_le (c : ResultCode) : (codeByte c).toNat ≤ 8 := by cases c <;> decide

/-- A commit keeps the invariant when a buffer it copies has passed its checks (R28, R29, R45). -/
theorem invariant_commit {c : ResultCode} (hl : s.status.lcfg = .normal) (hp : s.pend = .none)
    (ht : s.timer = .stopped) (hromv : s.status.romv = true → romCrcOk s.rom = true)
    (htempv : s.status.tempv = true →
      cfgOk s.sp[4] = true ∧ spCrcOk s.sp = true ∧ aboveAbsZero (trawOf s.sp) = true)
    (hrom : s.work.op = 0x6#4 → c = .ok → romCrcOk s.work.sRom = true)
    (htemp : s.work.op = 0x7#4 → c = .ok → cfgOk s.work.sSp[4] = true ∧
      spCrcOk s.work.sSp = true ∧ aboveAbsZero (trawOf s.work.sSp) = true) :
    Invariant (commit c s) := by
  refine invariant_of_idle rfl rfl hl hp ht (fun _ => errOf_iff c) (fun _ => rfl) (codeByte_le c) ?_ ?_
  · intro hv
    by_cases hc : commitsRom s.work.op c = true
    · obtain ⟨hop, hok⟩ := (commitsRom_iff _ _).1 hc
      simpa [commit, hc] using hrom hop hok
    · simp only [commit, hc, Bool.false_or] at hv
      simpa [commit, hc] using hromv hv
  · intro hv
    by_cases hc : commitsTemp s.work.op c = true
    · obtain ⟨hop, hok⟩ := (commitsTemp_iff _ _).1 hc
      simpa [commit, hc] using htemp hop hok
    · simp only [commit, hc, Bool.false_or] at hv
      simpa [commit, hc] using htempv hv

/-! ## A CMD write -/

theorem invariant_rejected (hi : Invariant s) : Invariant { s with status.cmderr := true } := by
  obtain ⟨a1, a2, a3, a4, a5, a6, a7, a8, a9, a10, a11, a12, a13, a14, a15, a16, a17⟩ := hi
  constructor <;> assumption

/-- The state in which a command that takes time starts (R46): `opc` latched, the sequencer at `q`, ROMV, TEMPV
and writeByte's byte as given. -/
def started (q : Seq) (opc : Nibble) (romv tempv : Bool) (b : Byte) (s : State) : State :=
  start q { latch opc s with
    status := { (latch opc s).status with romv := romv, tempv := tempv }
    work := { (latch opc s).work with b := b } }

/-- A command starts at a position of its own outside busReset's try; ROMV and TEMPV may only be cleared, and
are for the command that rewrites their buffer (R28, R29, R46). -/
theorem invariant_started {q : Seq} {opc : Nibble} {romv tempv : Bool} {b : Byte} (hi : Invariant s)
    (hb : s.status.busy = false) (hop : q.opcode = some opc) (hreset : q.inReset = false)
    (hbyte : byteFits (started q opc romv tempv b s) = true)
    (hromv : romv = true → s.status.romv = true) (htempv : tempv = true → s.status.tempv = true)
    (hrom : opc = 0x6#4 → romv = false) (htemp : opc = 0x7#4 → tempv = false) :
    Invariant (started q opc romv tempv b s) := by
  obtain ⟨-, hp, ht, hl⟩ := idle_block hi hb
  have hidle : q ≠ .idle := by rintro rfl; cases hop
  have hcommit : q ≠ .commit := by rintro rfl; cases hop
  constructor
  case idle => simp [started, hidle]
  case lcfg => simp [started, latch, hl, hreset]
  case pend => simp [pendFits, started, latch, hp]
  case timer => simp [started, latch, hp, ht]
  case opcode => intro o ho; exact Option.some.inj (hop.symm.trans ho)
  case byte => exact hbyte
  case raised => rintro c rfl; cases hreset
  case running => exact fun _ => ⟨rfl, rfl⟩
  case err => exact nofun
  case errDone => exact nofun
  case result => exact hi.result
  case romv => exact fun h => hi.romv (hromv h)
  case tempv => exact fun h => hi.tempv (htempv h)
  case romBusy => exact fun _ => hrom
  case tempBusy => exact fun _ => htemp
  case romCommit => exact fun h => absurd h hcommit
  case tempCommit => exact fun h => absurd h hcommit

/-- A command that leaves ROMV and TEMPV alone rewrites neither buffer. -/
theorem invariant_started_flags {q : Seq} {opc : Nibble} {b : Byte} (hi : Invariant s)
    (hb : s.status.busy = false) (hop : q.opcode = some opc) (hreset : q.inReset = false)
    (hbyte : byteFits (started q opc s.status.romv s.status.tempv b s) = true)
    (hrom : opc ≠ 0x6#4) (htemp : opc ≠ 0x7#4) :
    Invariant (started q opc s.status.romv s.status.tempv b s) :=
  invariant_started hi hb hop hreset hbyte id id (absurd · hrom) (absurd · htemp)

theorem CmdWrite.invariant (hi : Invariant s) (h : CmdWrite s t) : Invariant t := by
  cases h with
  | rejected => exact invariant_rejected hi
  | ended hb opc c hc =>
    obtain ⟨-, hp, ht, hl⟩ := idle_block hi hb
    obtain ⟨hrom, htemp⟩ := no_buffer_commit hc
    exact invariant_commit hl hp ht hi.romv hi.tempv
      (fun hop hok => by simp [(commitsRom_iff opc c).2 ⟨hop, hok⟩] at hrom)
      (fun hop hok => by simp [(commitsTemp_iff opc c).2 ⟨hop, hok⟩] at htemp)
  | reset hb =>
    exact invariant_started_flags (b := s.work.b) hi hb rfl rfl rfl (by decide) (by decide)
  | bit hb =>
    exact invariant_started_flags (b := s.work.b) hi hb rfl rfl rfl (by decide) (by decide)
  | byte hb c hc =>
    refine invariant_started_flags (b := c.operand s.data) hi hb rfl rfl ?_ ?_ ?_
    · simp [byteFits, started, latch]
    all_goals rcases hc with rfl | rfl | rfl <;> decide
  | rom hb =>
    exact invariant_started (q := .cfgReset .rom) (b := s.work.b) hi hb rfl rfl rfl nofun id
      (fun _ => rfl) nofun
  | temp hb =>
    exact invariant_started (q := .cfgReset .temp1) (b := s.work.b) hi hb rfl rfl rfl id nofun
      nofun (fun _ => rfl)

/-! ## A request is issued -/

/-- A request that the position issues keeps the invariant when the byte of writeByte is in place. -/
theorem invariant_issued {p : Pend} {b : Byte} {tm : Timer} (hi : Invariant s) (l : List Input)
    (hp : pendFits { s with pend := p, work.b := b } = true)
    (hb : byteFits { s with pend := p, work.b := b } = true) (ht : tm = .running ↔ p = .wait) :
    Invariant { s with inputs := l, pend := p, work.b := b, timer := tm } := by
  obtain ⟨a1, a2, -, -, a5, -, a7, a8, a9, a10, a11, a12, a13, a14, a15, a16, a17⟩ := hi
  constructor <;> assumption

theorem operand_of_command {c : ByteCall} {b : Byte} (h : c.command = some b) (d : Byte) :
    c.operand d = b := by
  cases c <;> cases h <;> rfl

/-- At a position past the start of writeByte its byte stays the one of the call, whatever is issued. -/
theorem byteFits_issued (hi : Invariant s) (p : Pend)
    (hc : ∀ c, s.seq = .txByte c 0 → c.command = none) :
    byteFits { s with pend := p } = true := by
  have h := hi.byte
  cases hq : s.seq with
  | txByte c i =>
    have hload : (i == 0 && c.command.isSome) = false := by
      by_cases h0 : i = 0
      · subst h0; simp [hc c hq]
      · simp [h0]
    simpa [byteFits, hq, hload] using h
  | rxByte => simpa [byteFits, hq] using h
  | _ => simp [byteFits]

theorem invariant_frame {b : Byte} (hi : Invariant s) (l : List Input) (hp : s.pend = .none)
    (hf : s.seq.frame s.work = some b) (hc : ∀ c, s.seq = .txByte c 0 → c.command = none) :
    Invariant { s with inputs := l, pend := .tx b } :=
  invariant_issued (b := s.work.b) (tm := s.timer) hi l (by simp [pendFits, hf])
    (byteFits_issued hi _ hc) (by simp [timer_stopped_of_pend hi, hp])

theorem invariant_command {c : ByteCall} {b : Byte} (hi : Invariant s) (l : List Input)
    (hp : s.pend = .none) (hq : s.seq = .txByte c 0) (hc : c.command = some b) :
    Invariant { s with inputs := l, work.b := b, pend := .tx (slotFrame (b.getLsbD 0)) } :=
  invariant_issued (tm := s.timer) hi l (by simp [pendFits, hq, Seq.frame])
    (by simp [byteFits, hq, operand_of_command hc]) (by simp [timer_stopped_of_pend hi, hp])

theorem invariant_lineRx (hi : Invariant s) (hp : s.pend = .none) (hr : s.seq.receives = true) :
    Invariant (lineRx s) :=
  invariant_issued (b := s.work.b) (tm := s.timer) hi s.inputs (by simpa [pendFits] using hr)
    (byteFits_issued hi _ fun c hq => by simp [hq, Seq.receives] at hr)
    (by simp [timer_stopped_of_pend hi, hp])

theorem invariant_startWait (hi : Invariant s) (hq : s.seq = .wait) : Invariant (startWait s) :=
  invariant_issued (b := s.work.b) hi s.inputs (by simp [pendFits, hq])
    (byteFits_issued hi _ fun c h => by simp [hq] at h) (by simp)

/-! ## The sequencer's own steps -/

theorem invariant_resetBegin {c : ResetCall} (hi : Invariant s) (hp : s.pend = .none)
    (hq : s.seq = .cfgReset c) : Invariant (resetBegin c s) := by
  have ht : s.timer = .stopped := timer_stopped_of_pend hi (by simp [hp])
  refine invariant_of_placed (u := lineCfg .reset s) hi (busy_of_not_idle hi (by simp [hq])) ⟨_, rfl⟩ rfl
    rfl rfl rfl (by constructor <;> rfl) ?_
  exact placed_goto (by simp) (by simp [Seq.inReset]) hp ht
    (fun o ho => hi.opcode o (by rw [hq]; exact ho)) rfl (by simp)

/-- What busReset leads to after its finally is a legal position (R125, R131, R170, R180). -/
theorem placed_resetDone {c : ResetCall} {raised : Bool} (hq : s.seq = .cfgNormal c raised)
    (hl : s.status.lcfg = .normal) (hp : s.pend = .none) (ht : s.timer = .stopped)
    (ho : s.work.op = c.opcode) : Placed (resetDone c s) := by
  have jump (k : ByteCall) (hk : k.command.isSome = true) (hko : k.opcode = c.opcode) (w : Work)
      (hw : w.op = s.work.op) : Placed (goto (.txByte k 0) { s with work := w }) :=
    placed_goto (by simp) (by simp [hl, Seq.inReset]) hp ht
      (by rintro o ⟨⟩; exact hw.trans (ho.trans hko.symm)) (by simp [byteFits, hk, hp]) (by simp)
  unfold resetDone
  dsimp only
  split
  · cases c with
    | cmd =>
      exact placed_finish hl hp ht fun _ => ⟨fun h => by simp [ho, ResetCall.opcode] at h,
        fun h => by simp [ho, ResetCall.opcode] at h⟩
    | rom => exact jump .romCommand rfl rfl _ rfl
    | temp1 => exact jump .tempSkip1 rfl rfl _ rfl
    | temp2 => exact jump .tempSkip2 rfl rfl _ rfl
  · rw [raiseFail_outside_try (by simp [hq])]
    exact placed_finish hl hp ht nofun

theorem invariant_resetFinally {c : ResetCall} {raised : Bool} (hi : Invariant s) (hp : s.pend = .none)
    (hq : s.seq = .cfgNormal c raised) : Invariant (resetFinally c raised s) := by
  have hbusy := busy_of_not_idle hi (by simp [hq])
  have ht : s.timer = .stopped := timer_stopped_of_pend hi (by simp [hp])
  have ho : s.work.op = c.opcode := hi.opcode _ (by rw [hq]; rfl)
  cases raised with
  | true =>
    have hcode : s.work.sCode ≠ .ok := by rcases hi.raised c hq with h | h <;> simp [h]
    exact invariant_of_placed (u := lineCfg .normal s) hi hbusy ⟨_, rfl⟩ rfl rfl rfl rfl (keeps_goto _ _)
      (placed_finish (c := s.work.sCode) (s := lineCfg .normal s) rfl hp ht (absurd · hcode))
  | false =>
    exact invariant_of_placed (u := lineCfg .normal s) hi hbusy ⟨_, rfl⟩ rfl rfl rfl rfl
      (keeps_resetDone c _) (placed_resetDone (s := lineCfg .normal s) hq rfl hp ht ho)

theorem invariant_commitStep (hi : Invariant s) (hp : s.pend = .none) (hq : s.seq = .commit) :
    Invariant (commit s.work.sCode s) :=
  invariant_commit (lcfg_normal_of_ne (by simp [hi.lcfg, hq, Seq.inReset])) hp
    (timer_stopped_of_pend hi (by simp [hp])) hi.romv hi.tempv (hi.romCommit hq) (hi.tempCommit hq)

theorem invariant_sequencerStep (hi : Invariant s) (hp : s.pend = .none) :
    Invariant (sequencerStep s) := by
  cases hq : s.seq <;> simp only [sequencerStep, hq]
  case cfgReset c => exact invariant_resetBegin hi hp hq
  case cfgNormal c raised => exact invariant_resetFinally hi hp hq
  case rxEcho | rxBit | rxByte => exact invariant_lineRx hi hp (by rw [hq]; rfl)
  case wait => exact invariant_startWait hi hq
  case commit => exact invariant_commitStep hi hp hq
  all_goals exact hi

/-! ## An outstanding request ends -/

/-- A step of the running command keeps the invariant when it touches only the script, the draw counter, the
request and the timer before it goes on at a legal position. -/
theorem invariant_answered {l : List Input} {n : Nat} {p : Pend} {tm : Timer} (hi : Invariant s)
    (hpend : s.pend ≠ .none) (k : Keeps { s with inputs := l, draws := n, pend := p, timer := tm } t)
    (hp : Placed t) : Invariant t := by
  have hidle : s.seq ≠ .idle := fun hq => hpend (idle_block hi (hi.idle.1 hq)).2.1
  exact invariant_of_placed hi (busy_of_not_idle hi hidle)
    (u := { s with inputs := l, draws := n, pend := p, timer := tm }) ⟨_, rfl⟩ rfl rfl rfl rfl k hp

/-- A failed answer leads to the finally of busReset or to the commit, with its code (R121, R122, R201). -/
theorem placed_failed {c : ResultCode} (hi : Invariant s) (hc : c = .timeout ∨ c = .ioErr)
    (hp : (∃ b, s.pend = .tx b) ∧ (s.seq.frame s.work).isSome = true ∨
      s.pend = .rx ∧ s.seq.receives = true) (l : List Input) (n : Nat) :
    Placed (raiseFail c { s with inputs := l, draws := n, pend := .none }) := by
  have hwait : s.pend ≠ .wait := by
    rcases hp with ⟨⟨b, h⟩, -⟩ | ⟨h, -⟩ <;> simp [h]
  have hn : ∀ k b, s.seq ≠ .cfgNormal k b := by
    intro k b hq
    rcases hp with ⟨-, h⟩ | ⟨-, h⟩ <;> simp [hq, Seq.frame, Seq.receives] at h
  have ht := timer_stopped_of_pend hi hwait
  exact placed_raiseFail hi.lcfg rfl ht
    (by rcases hc with rfl | rfl <;> simp) hn hi.opcode fun _ => hc

theorem placed_waited (hi : Invariant s) (hq : s.seq = .wait) (l : List Input) :
    Placed { s with inputs := l, pend := .none, timer := .stopped, seq := .cfgReset .temp2 } :=
  placed_goto (s := { s with inputs := l, pend := .none, timer := .stopped }) (by simp)
    (by simp [hi.lcfg, hq, Seq.inReset]) rfl rfl (fun o ho => hi.opcode o (by rw [hq]; exact ho)) rfl
    (by simp)

/-! ## The step -/

/-- Settles O53, by the cases of one step: each ends the command, starts one, issues a request, or moves the
sequencer to a legal position (`Placed`). -/
theorem stepKeepsInv : Obligations.StepKeepsInv := by
  intro s t hi h
  cases step_cases h with
  | cmd v l _ _ ht =>
    exact ht.invariant (s := { s with inputs := l }) (invariant_congr hi rfl rfl rfl rfl rfl rfl rfl rfl)
  | data | crc | crcin | read | quiet => exact invariant_congr hi rfl rfl rfl rfl rfl rfl rfl rfl
  | blockReset => exact invariant_blockReset _
  | frame b l _ hp hf hc => exact invariant_frame hi l hp hf hc
  | command c b l _ hp hq hc => exact invariant_command hi l hp hq hc
  | seq l _ hp =>
    exact invariant_sequencerStep (invariant_congr hi rfl rfl rfl rfl rfl rfl rfl rfl) hp
  | taken b l n hp hf =>
    exact invariant_answered hi (by simp [hp]) (keeps_txDone _)
      (placed_txDone hi hp hf ⟨rfl, rfl, rfl, rfl, rfl⟩)
  | received v l n hp hr =>
    exact invariant_answered hi (by simp [hp]) (keeps_rxDone _ _)
      (placed_rxDone v hi hp hr ⟨rfl, rfl, rfl, rfl, rfl⟩)
  | failed c l n hc hp =>
    refine invariant_answered hi ?_ (keeps_raiseFail _ _) (placed_failed hi hc hp l n)
    rcases hp with ⟨⟨b, h⟩, -⟩ | ⟨h, -⟩ <;> simp [h]
  | waited l hp hq =>
    exact invariant_answered (l := l) (n := s.draws) (p := .none) (tm := .stopped) hi
      (by simp [hp]) (by constructor <;> rfl) (placed_waited hi hq l)

end Sys2Proof.Machine
end

section
/-! Which step may change which register: CRC and DATA, the buffers, the results, LCFG and CMDERR, each by the
cases of `RegStep`. -/

namespace Sys2Proof.Machine

open Sys2Proof.Safety

variable {s t : State}

/-! ## STATUS as a byte -/

/-- STATUS, built up from its most significant bit. -/
theorem statusByte_eq_concat (st : Status) : statusByte st =
    (((((((BitVec.ofBool (lcfgBit st.lcfg)).concat st.cmderr).concat st.tempv).concat st.romv).concat
      st.pres).concat st.err).concat st.done).concat st.busy := rfl

theorem lcfgBit_iff (m : LineCfg) : lcfgBit m = true ↔ m = .reset := by
  cases m <;> simp [lcfgBit]

/-- Settles O11: each bit of the concatenation is the one-bit field it came from. -/
theorem statusBits : Obligations.StatusBits := by
  intro st
  rw [statusByte_eq_concat]
  simp [BitVec.getElem_concat, lcfgBit_iff]

theorem statusByte_cmderr (st : Status) : (statusByte st).getLsbD 6 = st.cmderr := by
  obtain ⟨-, -, -, -, -, -, h, -⟩ := statusBits st
  exact h

theorem statusByte_lcfg (st : Status) : (statusByte st).getLsbD 7 = lcfgBit st.lcfg := by
  obtain ⟨-, -, -, -, -, -, -, h⟩ := statusBits st
  exact Bool.eq_iff_iff.2 (h.trans (lcfgBit_iff _).symm)

/-! ## DATA and CRC -/

theorem RegStep.data_of_ne (h : RegStep s t) (hne : t.data ≠ s.data) :
    (∃ v rest, s.inputs = hostWrite 0x03#5 v :: rest ∧ t.data = v) ∨
      ∃ rest, s.inputs = .blockReset :: rest := by
  cases h with
  | cmd v l _ _ ht => exact absurd ht.data hne
  | data v l hin => exact .inl ⟨v, l, hin, rfl⟩
  | blockReset l hin => exact .inr ⟨l, hin⟩
  | crc | crcin | commit => exact absurd rfl hne
  | lineReset _ _ _ k | lineNormal _ _ _ _ k | same _ k => exact absurd k.data hne

theorem RegStep.crc_of_ne (h : RegStep s t) (hne : t.crc ≠ s.crc) :
    (∃ v rest, s.inputs = hostWrite 0x06#5 v :: rest ∧ t.crc = v ∨
      s.inputs = hostWrite 0x07#5 v :: rest ∧ t.crc = crc8Byte s.crc v) ∨
      ∃ rest, s.inputs = .blockReset :: rest := by
  cases h with
  | cmd v l _ _ ht => exact absurd ht.crc hne
  | crc v l hin => exact .inl ⟨v, l, .inl ⟨hin, rfl⟩⟩
  | crcin v l hin => exact .inl ⟨v, l, .inr ⟨hin, rfl⟩⟩
  | blockReset l hin => exact .inr ⟨l, hin⟩
  | data | commit => exact absurd rfl hne
  | lineReset _ _ _ k | lineNormal _ _ _ _ k | same _ k => exact absurd k.crc hne

/-- Settles O27, by the cases of a step: only the host's writes reach DATA and CRC. -/
theorem dataAndCrcAreWrittenByTheHost : Obligations.DataAndCrcAreWrittenByTheHost := by
  intro s t h hreset
  have hn : ¬ ∃ rest, s.inputs = .blockReset :: rest := fun ⟨rest, hin⟩ => hreset rest hin
  exact ⟨fun hne => ((step_regStep h).data_of_ne hne).resolve_right hn,
    fun hne => ((step_regStep h).crc_of_ne hne).resolve_right hn⟩

/-! ## The buffers -/

/-- ROM0 to ROM7, SP0 to SP8 and RXDATA stay, but at a commit and at block reset. -/
theorem RegStep.buffers (h : RegStep s t) :
    (∃ l, s.inputs = .blockReset :: l) ∨
    (s.seq = .commit ∧ ∃ l, t = Machine.commit s.work.sCode { s with inputs := l }) ∨
    (t.rxdata = s.rxdata ∧ t.rom = s.rom ∧ t.sp = s.sp) := by
  cases h with
  | cmd v l _ _ ht => exact .inr (.inr ht.buffers)
  | data | crc | crcin => exact .inr (.inr ⟨rfl, rfl, rfl⟩)
  | blockReset l hin => exact .inl ⟨l, hin⟩
  | commit l hq => exact .inr (.inl ⟨hq, l, rfl⟩)
  | lineReset _ _ _ k | lineNormal _ _ _ _ k | same _ k => exact .inr (.inr ⟨k.rxdata, k.rom, k.sp⟩)

theorem commit_rom_of_ne {c : ResultCode} (h : (commit c s).rom ≠ s.rom) :
    s.work.op = 0x6#4 ∧ c = .ok ∧ (commit c s).rom = s.work.sRom ∧
      (commit c s).status.romv = true ∧ (commit c s).result = 0x00#8 := by
  have hc : commitsRom s.work.op c = true := by
    by_contra hc; exact h (if_neg hc)
  obtain ⟨hop, rfl⟩ := (commitsRom_iff _ _).1 hc
  exact ⟨hop, rfl, by simp [commit, hc], by simp [commit, hc], rfl⟩

theorem commit_sp_of_ne {c : ResultCode} (h : (commit c s).sp ≠ s.sp) :
    s.work.op = 0x7#4 ∧ c = .ok ∧ (commit c s).sp = s.work.sSp ∧
      (commit c s).status.tempv = true ∧ (commit c s).result = 0x00#8 := by
  have hc : commitsTemp s.work.op c = true := by
    by_contra hc; exact h (if_neg hc)
  obtain ⟨hop, rfl⟩ := (commitsTemp_iff _ _).1 hc
  exact ⟨hop, rfl, by simp [commit, hc], by simp [commit, hc], rfl⟩

theorem commit_rxdata_of_ne {c : ResultCode} (h : (commit c s).rxdata ≠ s.rxdata) :
    isExchange s.work.op = true ∧ s.work.sRxv = true ∧ (commit c s).rxdata = s.work.sRx := by
  have hc : (isExchange s.work.op && s.work.sRxv) = true := by
    by_contra hc; exact h (if_neg hc)
  obtain ⟨hop, hrxv⟩ := Bool.and_eq_true_iff.1 hc
  exact ⟨hop, hrxv, if_pos hc⟩

/-- The exchange commands are the opcodes 2 to 5 (R91). -/
theorem opcode_bounds_of_isExchange {o : Nibble} (h : isExchange o = true) :
    2 ≤ o.toNat ∧ o.toNat ≤ 5 := by
  rcases (isExchange_iff o).1 h with rfl | rfl | rfl | rfl <;> decide

/-- Settles O56: a buffer that changes has been copied by a commit, and the commit's own condition is the claim. -/
theorem buffersChangeOnlyAtCommit : Obligations.BuffersChangeOnlyAtCommit := by
  intro s t h hreset
  rcases (step_regStep h).buffers with ⟨l, hin⟩ | ⟨hq, l, rfl⟩ | ⟨hrx, hrom, hsp⟩
  · exact absurd hin (hreset l)
  · refine ⟨fun hne => ⟨hq, commit_rom_of_ne hne⟩, fun hne => ⟨hq, commit_sp_of_ne hne⟩, fun hne => ?_⟩
    obtain ⟨hop, hrxv, e⟩ := commit_rxdata_of_ne hne
    obtain ⟨hlo, hhi⟩ := opcode_bounds_of_isExchange hop
    exact ⟨hq, hlo, hhi, hrxv, e⟩
  · exact ⟨fun hne => absurd hrom hne, fun hne => absurd hsp hne, fun hne => absurd hrx hne⟩

/-! ## The results -/

/-- `t` shows the results of `s`: the registers a commit writes, and no others. -/
structure SameResults (s t : State) : Prop where
  result : t.result = s.result
  rxdata : t.rxdata = s.rxdata
  echo : t.echo = s.echo
  rom : t.rom = s.rom
  sp : t.sp = s.sp
  done : t.status.done = s.status.done
  err : t.status.err = s.status.err
  pres : t.status.pres = s.status.pres
  romv : t.status.romv = s.status.romv
  tempv : t.status.tempv = s.status.tempv

theorem SameRegs.sameResults (k : SameRegs s t) : SameResults s t :=
  ⟨k.result, k.rxdata, k.echo, k.rom, k.sp, congrArg Status.done k.status, congrArg Status.err k.status,
    congrArg Status.pres k.status, congrArg Status.romv k.status, congrArg Status.tempv k.status⟩

/-- LCFG is no result. -/
theorem SameRegs.sameResults_lineCfg {m : LineCfg} (k : SameRegs (lineCfg m s) t) : SameResults s t := by
  obtain ⟨h1, h2, h3, h4, h5, h6, h7, h8, h9, h10⟩ := k.sameResults
  exact ⟨h1, h2, h3, h4, h5, h6, h7, h8, h9, h10⟩

/-- Equal results read equally at every offset but those of STATUS, DATA and CRC. -/
theorem SameResults.readReg_eq (k : SameResults s t) {off : Offset} (h1 : off ≠ 0x01#5)
    (h3 : off ≠ 0x03#5) (h6 : off ≠ 0x06#5) : readReg off t = readReg off s := by
  simp only [readReg, h1, h3, h6, if_false, k.result, k.rxdata, k.echo, k.rom, k.sp]

theorem RegStep.sameResults (h : RegStep s t) (hb : s.status.busy = true)
    (hb' : t.status.busy = true) : SameResults s t := by
  cases h with
  | cmd v l _ _ ht => rw [ht.eq_of_busy hb]; constructor <;> rfl
  | data | crc | crcin => constructor <;> rfl
  | blockReset | commit => cases hb'
  | lineReset _ _ _ k | lineNormal _ _ _ _ k => exact k.sameResults_lineCfg
  | same _ k => exact k.sameResults

/-- Settles O57: between acceptance and commit no step writes a result. -/
theorem resultsHiddenUntilCommit : Obligations.ResultsHiddenUntilCommit := by
  intro s t hb h hb'
  have k := (step_regStep h).sameResults hb hb'
  exact ⟨fun off h1 h3 h6 => k.readReg_eq h1 h3 h6, k.done, k.err, k.pres, k.romv, k.tempv⟩

/-! ## LCFG -/

/-- LCFG changes at the two LineCfg of busReset and at block reset only (R31). -/
theorem RegStep.lcfg_of_ne (h : RegStep s t) (hne : t.status.lcfg ≠ s.status.lcfg) :
    (∃ c, s.seq = .cfgReset c ∧ t.status.lcfg = .reset) ∨
    (∃ c r, s.seq = .cfgNormal c r ∧ t.status.lcfg = .normal) ∨
    (∃ rest, s.inputs = .blockReset :: rest) := by
  cases h with
  | cmd v l _ _ ht => exact absurd ht.lcfg hne
  | data | crc | crcin | commit => exact absurd rfl hne
  | blockReset l hin => exact .inr (.inr ⟨l, hin⟩)
  | lineReset c _ hq k => exact .inl ⟨c, hq, congrArg Status.lcfg k.status⟩
  | lineNormal c r _ hq k => exact .inr (.inl ⟨c, r, hq, congrArg Status.lcfg k.status⟩)
  | same _ k => exact absurd (congrArg Status.lcfg k.status) hne

/-- The line port's settings, from the bit the host reads (R31, R69). -/
theorem linePort_eq (s : State) : linePort s =
    { baud := if lcfgBit s.status.lcfg then 9600 else 115200
      dataBits := if lcfgBit s.status.lcfg then 8 else 6
      parity := false, stopBits := 1, handshake := false, rts := false } := by
  unfold linePort
  cases s.status.lcfg <;> rfl

/-- Settles O58: the cases of a step for who writes LCFG, and the invariant's idle block for BUSY = 0. -/
theorem lcfgWrittenOnlyByLineCfg : Obligations.LcfgWrittenOnlyByLineCfg := by
  refine ⟨fun s t h hne => (step_regStep h).lcfg_of_ne hne, fun s => ?_, fun s => ?_, rfl,
    fun s hi hb => ?_⟩
  · rw [readReg_status, statusByte_lcfg]; exact lcfgBit_iff _
  · rw [readReg_status, statusByte_lcfg]; exact linePort_eq s
  · obtain ⟨-, -, -, hl⟩ := idle_block hi hb
    rw [readReg_status, statusByte_lcfg, hl]; rfl

/-! ## CMDERR -/

/-- CMDERR stays, but at a CMD write, which sets it to BUSY, and at block reset, which clears it (R30, R241). -/
theorem RegStep.cmderr (h : RegStep s t) :
    ((∃ v rest, s.inputs = hostWrite 0x00#5 v :: rest) ∧ t.status.cmderr = s.status.busy) ∨
    ((∃ rest, s.inputs = .blockReset :: rest) ∧ t.status.cmderr = false) ∨
    t.status.cmderr = s.status.cmderr := by
  cases h with
  | cmd v l _ hin ht => exact .inl ⟨⟨v, l, hin⟩, ht.cmderr⟩
  | data | crc | crcin | commit => exact .inr (.inr rfl)
  | blockReset l hin => exact .inr (.inl ⟨⟨l, hin⟩, rfl⟩)
  | lineReset _ _ _ k | lineNormal _ _ _ _ k =>
    have e : t.status.cmderr = _ := congrArg Status.cmderr k.status
    exact .inr (.inr e)
  | same _ k => exact .inr (.inr (congrArg Status.cmderr k.status))

/-- A host write of CMD steps to what R46 says of it. -/
theorem cmdWrite_of_step {v : Byte} {rest : List Input} (hin : s.inputs = hostWrite 0x00#5 v :: rest)
    (h : step s = .next t) : CmdWrite { s with inputs := rest } t :=
  exec_decodeCmd_cases (v := v) ((step_write hin).symm.trans h)

/-- Settles O59, by the cases of a step: a CMD write sets CMDERR to BUSY, block reset clears it, no other step
touches it. -/
theorem cmderrIsSticky : Obligations.CmderrIsSticky := by
  refine ⟨fun s => statusByte_cmderr s.status, rfl, fun s t h => ⟨fun v rest hin => ?_, ?_, ?_⟩⟩
  · have hw := cmdWrite_of_step hin h
    exact ⟨hw.eq_of_busy, fun hb => hw.cmderr.trans hb⟩
  · intro h0 h1
    rcases (step_regStep h).cmderr with ⟨hcmd, e⟩ | ⟨-, e⟩ | e
    · exact ⟨e.symm.trans h1, hcmd⟩
    · simp [h1] at e
    · simp [h0, h1] at e
  · intro h1 h0
    rcases (step_regStep h).cmderr with ⟨hcmd, e⟩ | ⟨hin, -⟩ | e
    · exact .inl ⟨e.symm.trans h0, hcmd⟩
    · exact .inr hin
    · simp [h0, h1] at e

end Sys2Proof.Machine
end

section
/-! The host's accesses: the register map, reads and plain writes, CMD writes accepted and rejected, the CRC
unit, and the two views of the buffers. -/

namespace Sys2Proof.Machine

open Sys2Proof.Safety

variable {s t : State} {rest : List Input}

/-! ## The register map (R21, R61) -/

/-- A host read of one byte runs its code (R61). -/
theorem step_read {off : Offset} (h : s.inputs = hostRead1 off :: rest) :
    step s = runCode (.read off) { s with inputs := rest } := by
  rw [step_host_ok h (accessCode_read off.isLt), BitVec.ofNat_toNat, BitVec.setWidth_eq]

/-- Settles O6: the access is its code, and the code decodes to the row's instruction. -/
theorem hostAccessRunsItsInstruction : Obligations.HostAccessRunsItsInstruction := by
  intro s rest v
  exact ⟨fun h => step_write h, fun h => step_write h, fun h => step_write h, fun h => step_read h⟩

/-- Settles O9: CRCRD and every plain read are the same `hostRead`. -/
theorem hostReadReturnsTheRegister : Obligations.HostReadReturnsTheRegister := by
  intro s rest off h
  rw [step_read h, runCode_read]
  rfl

/-- Settles O10, from the lemmas about `readReg` at each offset. -/
theorem registerMap : Obligations.RegisterMap := fun s =>
  ⟨readReg_cmd s, readReg_status s, readReg_result s, readReg_data s, readReg_rxdata s, readReg_echo s,
    readReg_crc s, readReg_crcin s, readReg_rom s, readReg_sp s, fun _ => readReg_reserved s⟩

/-- A host write of an offset that holds no writable register does nothing (R19, R20). -/
theorem step_write_ignored {off : Offset} {v : Byte} (h : s.inputs = hostWrite off v :: rest)
    (h0 : off ≠ 0x00#5) (h3 : off ≠ 0x03#5) (h6 : off ≠ 0x06#5) (h7 : off ≠ 0x07#5) :
    step s = .next { s with inputs := rest } := by
  rw [step_write h]
  rcases runCode_write_cases off v { s with inputs := rest } with
    ⟨e, -⟩ | ⟨e, -⟩ | ⟨e, -⟩ | ⟨e, -⟩ | ⟨-, -, -, -, e⟩
  · exact absurd e h0
  · exact absurd e h3
  · exact absurd e h6
  · exact absurd e h7
  · exact e

/-- An offset from 0x08 on is none of the writable ones. -/
theorem step_write_from_8 {off : Offset} {v : Byte} (h : s.inputs = hostWrite off v :: rest)
    (hoff : 8 ≤ off.toNat) : step s = .next { s with inputs := rest } := by
  have hne (k : Offset) (hk : k.toNat < 8) : off ≠ k := by rintro rfl; omega
  exact step_write_ignored h (hne _ (by decide)) (hne _ (by decide)) (hne _ (by decide)) (hne _ (by decide))

/-- Settles O12: DATA is stored; the other offsets named are those no write reaches. -/
theorem plainWrites : Obligations.PlainWrites := by
  intro s rest off v h
  refine ⟨fun hoff => ?_, fun hoff => ?_⟩
  · subst hoff
    rw [step_write h]; rfl
  · rcases hoff with rfl | rfl | rfl | rfl | hoff
    case inr.inr.inr.inr => exact step_write_from_8 h hoff
    all_goals exact step_write_ignored h (by decide) (by decide) (by decide) (by decide)

/-- Settles O13. -/
theorem reservedOffsets : Obligations.ReservedOffsets := by
  intro s rest off v hoff
  refine ⟨fun h => ?_, fun h => step_write_from_8 h (by omega)⟩
  rw [hostReadReturnsTheRegister s rest off h, readReg_reserved s hoff]

/-! ## CMD writes (R46) -/

/-- Settles O18: acceptance, with each command's body run on the latched state. -/
theorem commandsStart : Obligations.CommandsStart := by
  intro s hb
  simp only [exec, execReset, execWbit, execXbyte, execWrite, execRead, execReadrom, execReadtemp,
    accept_idle hb]
  exact ⟨rfl, rfl, rfl, rfl, rfl, rfl, rfl⟩

/-- Settles O19: of the cases of a CMD write only the rejection has BUSY = 1. -/
theorem commandsWhileBusySetCmderr : Obligations.CommandsWhileBusySetCmderr := by
  intro s v hb
  obtain ⟨t, h⟩ := exec_next (decodeCmd v) s
  rw [h, (exec_decodeCmd_cases h).eq_of_busy hb]

/-- Only the flags of STATUS that acceptance writes, the running command's own state and the position differ. -/
def OnlyCommandState (s t : State) : Prop :=
  t = { s with
    status := { s.status with
      busy := t.status.busy, cmderr := t.status.cmderr, done := t.status.done, err := t.status.err,
      romv := t.status.romv, tempv := t.status.tempv }
    work := t.work
    seq := t.seq }

/-- What a write of one of the seven commands that take time leaves alone, accepted or rejected (R46). -/
theorem exec_command_frame {i : Instr} (hi : i = .reset ∨ i = .wbit ∨ i = .xbyte ∨ i = .write ∨ i = .read ∨
      i = .readrom ∨ i = .readtemp) (h : exec i s = .next t) :
    OnlyCommandState s t ∧ (i ≠ .readrom → t.status.romv = s.status.romv) ∧
      (i ≠ .readtemp → t.status.tempv = s.status.tempv) := by
  cases hb : s.status.busy with
  | true =>
    have hv : ∃ v, i = decodeCmd v := by
      rcases hi with rfl | rfl | rfl | rfl | rfl | rfl | rfl
      exacts [⟨1, rfl⟩, ⟨2, rfl⟩, ⟨3, rfl⟩, ⟨4, rfl⟩, ⟨5, rfl⟩, ⟨6, rfl⟩, ⟨7, rfl⟩]
    obtain ⟨v, rfl⟩ := hv
    rw [commandsWhileBusySetCmderr s v hb] at h
    cases h
    exact ⟨rfl, fun _ => rfl, fun _ => rfl⟩
  | false =>
    obtain ⟨hreset, hwbit, hxbyte, hwrite, hread, hreadrom, hreadtemp⟩ := commandsStart s hb
    rcases hi with rfl | rfl | rfl | rfl | rfl | rfl | rfl
    · cases h.symm.trans hreset; exact ⟨rfl, fun _ => rfl, fun _ => rfl⟩
    · cases h.symm.trans hwbit; exact ⟨rfl, fun _ => rfl, fun _ => rfl⟩
    · cases h.symm.trans hxbyte; exact ⟨rfl, fun _ => rfl, fun _ => rfl⟩
    · cases h.symm.trans hwrite; exact ⟨rfl, fun _ => rfl, fun _ => rfl⟩
    · cases h.symm.trans hread; exact ⟨rfl, fun _ => rfl, fun _ => rfl⟩
    · cases h.symm.trans hreadrom; exact ⟨rfl, fun hne => absurd rfl hne, fun _ => rfl⟩
    · cases h.symm.trans hreadtemp; exact ⟨rfl, fun _ => rfl, fun hne => absurd rfl hne⟩

/-- Settles O20, from what acceptance (O18) and rejection (O19) leave. -/
theorem commandWritesChangeOnlyStatus : Obligations.CommandWritesChangeOnlyStatus := by
  intro s t i hi h
  obtain ⟨hst, hromv, htempv⟩ := exec_command_frame hi h
  rw [OnlyCommandState] at hst
  refine ⟨fun off hoff => ?_, ?_, ?_, hromv, htempv, ?_, ?_, ?_, ?_, ?_⟩
  · rw [hst]; exact readReg_congr_of_ne_status hoff rfl rfl rfl rfl rfl rfl rfl
  all_goals rw [hst]

/-! ## The CRC unit -/

/-- Feeding bytes through CRCIN folds `crc8Byte` over them, from whatever CRC holds (R154). -/
theorem run_crcin (bs : List Byte) (h : s.inputs = bs.map (hostWrite 0x07#5) ++ rest) :
    run bs.length s = .next { s with inputs := rest, crc := bs.foldl crc8Byte s.crc } := by
  induction bs generalizing s with
  | nil => rw [List.map_nil, List.nil_append] at h; subst h; rfl
  | cons v bs ih =>
    have hstep : step s = .next { s with
        inputs := bs.map (hostWrite 0x07#5) ++ rest, crc := crc8Byte s.crc v } := step_write h
    rw [List.length_cons, run_step hstep, ih rfl]
    rfl

/-- Settles O25: CRC is cleared, and `crc8` is the fold from 0x00. -/
theorem crcUnitComputesCrc8 : Obligations.CrcUnitComputesCrc8 := by
  intro s rest bs h
  have hstep : step s = .next { s with
      inputs := bs.map (hostWrite 0x07#5) ++ rest, crc := 0x00#8 } := step_write h
  rw [run_step hstep, run_crcin bs rfl]
  rfl

/-! ## The commit -/

theorem errOf_eq_decide (c : ResultCode) : errOf c = decide (codeByte c ≠ 0x00#8) :=
  Bool.eq_iff_iff.2 ((errOf_iff c).trans decide_eq_true_iff.symm)

theorem commitsRom_iff_codeByte (o : Nibble) (c : ResultCode) :
    commitsRom o c = true ↔ o = 0x6#4 ∧ codeByte c = 0x00#8 := by
  rw [commitsRom_iff, codeByte_eq_zero_iff]

theorem commitsTemp_iff_codeByte (o : Nibble) (c : ResultCode) :
    commitsTemp o c = true ↔ o = 0x7#4 ∧ codeByte c = 0x00#8 := by
  rw [commitsTemp_iff, codeByte_eq_zero_iff]

/-- Settles O37: the commit's Boolean conditions are the propositions R45 states. -/
theorem commitCopiesTheStagedResults : Obligations.CommitCopiesTheStagedResults := by
  intro s rest hq hp hin
  rw [step_turn_silent (turn_tick hin) hp (by simp [sequencerCode, hq, Seq.frame]), advance_eq hin]
  simp only [sequencerStep, hq, commit, errOf_eq_decide, ← commitsRom_iff_codeByte,
    ← commitsTemp_iff_codeByte, ← isExchange_iff, ← Bool.and_eq_true_iff, Bool.decide_eq_true,
    Bool.or_comm]

/-! ## The views of the buffers -/

theorem toNat_append_byte {w : Nat} (x : BitVec w) (y : Byte) :
    (x ++ y).toNat = x.toNat * 256 + y.toNat := by
  rw [BitVec.toNat_append, ← Nat.shiftLeft_add_eq_or_of_lt y.isLt, Nat.shiftLeft_eq]

theorem toList_eq_of_eight {α : Type} (v : Vector α 8) :
    v.toList = [v[0], v[1], v[2], v[3], v[4], v[5], v[6], v[7]] := by
  apply List.ext_getElem
  · simp
  · intro i h _
    rw [Vector.length_toList] at h
    interval_cases i <;> simp

/-- Settles O49: both views append bytes, and an append is multiplication by 256 and addition. -/
theorem bufferViews : Obligations.BufferViews := by
  refine ⟨fun sp => ?_, fun rom => ?_⟩
  · have h0 := sp[0].isLt
    have h1 := sp[1].isLt
    have e : (trawOf sp).toNat = sp[1].toNat * 256 + sp[0].toNat := toNat_append_byte _ _
    rw [BitVec.toInt_eq_toNat_cond, e]
    split <;> split <;> omega
  · rw [toList_eq_of_eight]
    simp [serialOf, toNat_append_byte]

end Sys2Proof.Machine
end

section
/-! The sequencer, the line environment and the timer neither read nor write CRC and DATA: every operation of
theirs commutes with giving the two registers other contents. -/

namespace Sys2Proof.Machine

open Sys2Proof.Safety

/-- `s` with other contents of CRC and DATA. -/
def withCrcData (c v : Byte) (s : State) : State := { s with crc := c, data := v }

section
variable (c v : Byte) (s : State)

@[simp] theorem withCrcData_seq : (withCrcData c v s).seq = s.seq := rfl
@[simp] theorem withCrcData_pend : (withCrcData c v s).pend = s.pend := rfl

end

/-- An operation on the state that neither reads nor writes CRC and DATA. -/
def Ignores (f : State → State) : Prop :=
  ∀ (c v : Byte) (s : State), f (withCrcData c v s) = withCrcData c v (f s)

/-- The same of a step, which may also fault or be refused. -/
def StepIgnores (f : State → Host.Outcome State Fault Refusal) : Prop :=
  ∀ (c v : Byte) (s : State), f (withCrcData c v s) = mapNext (withCrcData c v) (f s)

theorem Ignores.comp {f g : State → State} (hf : Ignores f) (hg : Ignores g) : Ignores (f ∘ g) :=
  fun c v s => (congrArg f (hg c v s)).trans (hf c v (g s))

/-- A choice between two such operations, by a test that does not look at CRC and DATA either. -/
theorem Ignores.ite {p : State → Prop} [DecidablePred p] {f g : State → State}
    (hp : ∀ c v s, p (withCrcData c v s) ↔ p s) (hf : Ignores f) (hg : Ignores g) :
    Ignores fun s => if p s then f s else g s := by
  intro c v s
  by_cases h : p s
  · simp only [h, (hp c v s).2 h, if_true]; exact hf c v s
  · simp only [h, mt (hp c v s).1 h, if_false]; exact hg c v s

/-! ## The sequencer's operations -/

theorem ignores_raiseFail (k : ResultCode) : Ignores (raiseFail k) := by
  intro c v s
  unfold raiseFail
  simp only [withCrcData_seq]
  split <;> rfl

theorem ignores_verify (r : Byte) {go : State → State} (h : Ignores go) : Ignores (verify r go) :=
  Ignores.ite (fun _ _ _ => Iff.rfl) h (ignores_raiseFail _)

theorem ignores_romCheck : Ignores romCheck :=
  Ignores.ite (fun _ _ _ => Iff.rfl) (fun _ _ _ => rfl) (ignores_raiseFail _)

theorem ignores_tempCheck : Ignores tempCheck :=
  Ignores.ite (fun _ _ _ => Iff.rfl) (ignores_raiseFail _) <|
    Ignores.ite (fun _ _ _ => Iff.rfl) (ignores_raiseFail _) <|
      Ignores.ite (fun _ _ _ => Iff.rfl) (ignores_raiseFail _) fun _ _ _ => rfl

theorem ignores_romByteDone (k : Fin 8) (r : Byte) : Ignores (romByteDone k r) :=
  Ignores.ite (fun _ _ _ => Iff.rfl)
    (ignores_romCheck.comp (g := fun s => { s with work.sRom := s.work.sRom.set k r }) fun _ _ _ => rfl)
    fun _ _ _ => rfl

theorem ignores_tempByteDone (k : Fin 9) (r : Byte) : Ignores (tempByteDone k r) :=
  Ignores.ite (fun _ _ _ => Iff.rfl)
    (ignores_tempCheck.comp (g := fun s => { s with work.sSp := s.work.sSp.set k r }) fun _ _ _ => rfl)
    fun _ _ _ => rfl

theorem ignores_byteDone (k : ByteCall) (r : Byte) : Ignores (byteDone k r) := by
  cases k with
  | xbyte | read => exact fun _ _ _ => rfl
  | write =>
    exact Ignores.ite (fun _ _ _ => Iff.rfl) (fun _ _ _ => rfl) ((ignores_raiseFail _).comp
      (g := fun s => { s with work := { s.work with sRx := r, sRxv := true } }) fun _ _ _ => rfl)
  | romCommand | tempSkip1 | tempConvert | tempSkip2 | tempReadSp =>
    exact ignores_verify r fun _ _ _ => rfl
  | romByte k => exact ignores_romByteDone k r
  | tempByte k => exact ignores_tempByteDone k r

theorem ignores_afterReset (r : ResetCall) : Ignores (afterReset r) := by
  cases r <;> exact fun _ _ _ => rfl

theorem ignores_resetDone (r : ResetCall) : Ignores (resetDone r) :=
  have staged : Ignores fun s =>
      { s with work := { s.work with sEcho := s.work.e, sPres := presence s.work.e } } := fun _ _ _ => rfl
  Ignores.ite (fun _ _ _ => Iff.rfl) ((ignores_afterReset r).comp staged)
    ((ignores_raiseFail _).comp staged)

theorem ignores_resetFinally (r : ResetCall) (raised : Bool) : Ignores (resetFinally r raised) := by
  cases raised with
  | true => exact fun _ _ _ => rfl
  | false => exact (ignores_resetDone r).comp (g := lineCfg .normal) fun _ _ _ => rfl

theorem ignores_txDone : Ignores txDone := by
  intro c v s
  unfold txDone
  simp only [withCrcData_seq]
  split
  · rfl
  · rfl
  · split <;> rfl
  · rfl

theorem ignores_rxDone (b : Byte) : Ignores (rxDone b) := by
  intro c v s
  cases hq : s.seq <;> simp only [rxDone, withCrcData_seq, hq]
  case rxByte k i =>
    split
    · exact ignores_byteDone k _ c v { s with work.acc := accumulate s.work.acc b, seq := .rxByte k i }
    · rfl
  all_goals rfl

theorem ignores_sequencerStep : Ignores sequencerStep := by
  intro c v s
  cases hq : s.seq <;> simp only [sequencerStep, withCrcData_seq, hq]
  case cfgNormal r raised => exact ignores_resetFinally r raised c v s
  all_goals rfl

/-! ## Answers and turns -/

theorem Ignores.next {f : State → State} (h : Ignores f) : StepIgnores fun s => .next (f s) :=
  fun c v s => congrArg _ (h c v s)

theorem StepIgnores.ite {p : State → Prop} [DecidablePred p]
    {f g : State → Host.Outcome State Fault Refusal} (hp : ∀ c v s, p (withCrcData c v s) ↔ p s)
    (hf : StepIgnores f) (hg : StepIgnores g) : StepIgnores fun s => if p s then f s else g s := by
  intro c v s
  by_cases h : p s
  · simp only [h, (hp c v s).2 h, if_true]; exact hf c v s
  · simp only [h, mt (hp c v s).1 h, if_false]; exact hg c v s

theorem stepIgnores_answerTx (a : TxAnswer) : StepIgnores (answerTx a) := by
  refine StepIgnores.ite (fun _ _ _ => Iff.rfl) ?_ fun _ _ _ => rfl
  cases a with
  | ok => exact (ignores_txDone.comp (g := clearPend) fun _ _ _ => rfl).next
  | timeout | ioError => exact ((ignores_raiseFail _).comp (g := clearPend) fun _ _ _ => rfl).next

theorem stepIgnores_answerRx (a : RxAnswer) : StepIgnores (answerRx a) := by
  refine StepIgnores.ite (fun _ _ _ => Iff.rfl) ?_ fun _ _ _ => rfl
  cases a with
  | byte b => exact ((ignores_rxDone b).comp (g := clearPend) fun _ _ _ => rfl).next
  | timeout | ioError => exact ((ignores_raiseFail _).comp (g := clearPend) fun _ _ _ => rfl).next

theorem stepIgnores_timerReport : StepIgnores timerReport :=
  StepIgnores.ite (fun _ _ _ => Iff.rfl) (fun _ _ _ => rfl) fun _ _ _ => rfl

theorem stepIgnores_tick : StepIgnores tick := by
  intro c v s
  cases hp : s.pend <;> simp only [tick, withCrcData_pend, hp]
  case none => exact congrArg _ (ignores_sequencerStep c v s)
  case tx => exact stepIgnores_answerTx _ c v (drawn s)
  case rx => exact stepIgnores_answerRx _ c v (drawn s)
  case wait => exact stepIgnores_timerReport c v s

theorem stepIgnores_frame (b : Byte) : StepIgnores (runCode (.frame b)) := by
  intro c v s
  simp only [runCode, decode, decodeFrame]
  split_ifs <;> rfl

theorem stepIgnores_wire (b : Byte) : StepIgnores (runCode (.wire b)) := by
  intro c v s
  simp only [runCode, decode, decodeWire]
  split_ifs <;> rfl

/-- What the sequencer sends is a frame or a command byte. -/
theorem sequencerCode_cases {s : State} {k : Code} (h : sequencerCode s = some k) :
    (∃ b, k = .frame b) ∨ ∃ b, k = .wire b := by
  have frame {o : Option Byte} (h : o.map Code.frame = some k) : ∃ b, k = .frame b := by
    obtain ⟨b, -, hb⟩ := Option.map_eq_some_iff.1 h
    exact ⟨b, hb.symm⟩
  unfold sequencerCode at h
  split at h
  · split at h
    · next b _ => exact .inr ⟨b, (Option.some.inj h).symm⟩
    · exact .inl (frame h)
  · exact .inl (frame h)

/-- The block's own turn: it runs what the sequencer sends, or ticks. -/
theorem step_turn_ignores {s : State} (ht : Turn s) (c v : Byte) :
    step (withCrcData c v s) = mapNext (withCrcData c v) (step s) := by
  have ht' : Turn (withCrcData c v s) := ht
  by_cases hp : s.pend = .none
  · cases hk : sequencerCode s with
    | some k =>
      rw [step_turn_code ht hp hk, step_turn_code (s := withCrcData c v s) ht' hp hk]
      rcases sequencerCode_cases hk with ⟨b, rfl⟩ | ⟨b, rfl⟩
      · exact stepIgnores_frame b c v (advance s)
      · exact stepIgnores_wire b c v (advance s)
    | none =>
      rw [step_turn_silent ht hp hk, step_turn_silent (s := withCrcData c v s) ht' hp hk]
      exact ignores_sequencerStep.next c v (advance s)
  · rw [step_turn_pending ht hp, step_turn_pending ht' hp]
    exact stepIgnores_tick c v (advance s)

/-- Settles O26, by the head of the script: each agent's operation commutes with other contents of CRC and
DATA. -/
theorem agentsIgnoreCrcAndData : Obligations.AgentsIgnoreCrcAndData := by
  rintro s c v ⟨hhost, hreset⟩
  change step (withCrcData c v s) = mapNext (withCrcData c v) (step s)
  cases hin : s.inputs with
  | nil => exact step_turn_ignores (.inl hin) c v
  | cons i rest =>
    have hin' : (withCrcData c v s).inputs = i :: rest := hin
    cases i with
    | tick => exact step_turn_ignores (.inr ⟨rest, hin⟩) c v
    | host a => exact absurd hin (hhost a rest)
    | blockReset => exact absurd hin (hreset rest)
    | poll => rw [step_poll hin, step_poll hin']; rfl
    | tx a =>
      by_cases hp : ∃ b, s.pend = .tx b
      · obtain ⟨b, hp⟩ := hp
        rw [step_tx hin hp, step_tx hin' hp]
        exact stepIgnores_answerTx a c v { s with inputs := rest }
      · rw [step_tx_ignored hin (not_exists.1 hp), step_tx_ignored hin' (not_exists.1 hp)]; rfl
    | rx a =>
      by_cases hp : s.pend = .rx
      · rw [step_rx hin hp, step_rx hin' hp]
        exact stepIgnores_answerRx a c v { s with inputs := rest }
      · rw [step_rx_ignored hin hp, step_rx_ignored hin' hp]; rfl
    | timer ms =>
      by_cases hp : s.pend = .wait
      · rw [step_timer hin hp, step_timer hin' hp]
        split
        · exact stepIgnores_timerReport c v { s with inputs := rest }
        · rfl
      · rw [step_timer_ignored hin hp, step_timer_ignored hin' hp]; rfl

end Sys2Proof.Machine
end

section
/-! The step as such: it runs the code it fetches, host accesses outside R62 are refused, nothing else stops the
machine (R62, R206), and an idle block moves only for the host (R74, R242). -/

namespace Sys2Proof.Machine

open Sys2Proof.Safety

variable {s t : State} {rest : List Input}

/-! ## The code a step runs -/

theorem runCode_of_decode {c : Code} {i : Instr} (h : decode c = .ok i) (s : State) :
    runCode c s = exec i s := by
  simp only [runCode, h]

/-- Settles O5: `advance` is the script moved on by one entry. -/
theorem stepRunsTheFetchedInstruction : Obligations.StepRunsTheFetchedInstruction := by
  intro s c i hf hd
  rw [step_of_fetch hf, runCode_of_decode hd]
  rfl

/-! ## Host accesses (R62) -/

/-- An access that is a code has a next state, whatever the state. -/
theorem step_host_next {a : Access} {c : Code} (hin : s.inputs = .host a :: rest)
    (hc : accessCode a = .ok c) : ∃ t, step s = .next t := by
  rw [step_host_ok hin hc]
  exact runCode_next c _

/-- An access that is neither a one-byte write nor a one-byte read inside the window is refused. -/
theorem step_host_refused {a : Access} (hin : s.inputs = .host a :: rest)
    (hw : ∀ off v, a = .write off [v] → ¬ off < 32) (hr : ∀ off, a = .read off 1 → ¬ off < 32) :
    ∃ r, step s = .refused r := by
  rcases accessCode_cases a with ⟨off, v, ha, hoff, -⟩ | ⟨off, ha, hoff, -⟩ | ⟨r, hc⟩
  · exact absurd hoff (hw off v ha)
  · exact absurd hoff (hr off ha)
  · exact ⟨r, step_host_error hin hc⟩

/-- Settles O8: the accesses with a code are exactly those of one byte inside the window. -/
theorem onlyByteAccessesInTheWindow : Obligations.OnlyByteAccessesInTheWindow := by
  refine fun s rest => ⟨fun off bytes hin => ?_, fun off n hin => ?_⟩
  · split
    · next h =>
      obtain ⟨hoff, hlen⟩ := h
      obtain ⟨v, rfl⟩ := List.length_eq_one_iff.1 hlen
      exact step_host_next hin (accessCode_write hoff v)
    · next h =>
      refine step_host_refused hin ?_ nofun
      rintro _ v ⟨⟩ hoff
      exact h ⟨hoff, rfl⟩
  · split
    · next h =>
      obtain ⟨hoff, rfl⟩ := h
      exact step_host_next hin (accessCode_read hoff)
    · next h =>
      refine step_host_refused hin nofun ?_
      rintro _ ⟨⟩ hoff
      exact h ⟨hoff, rfl⟩

/-! ## No step is a fault (R206) -/

theorem answerTx_next (a : TxAnswer) (h : (s.seq.frame s.work).isSome = true) :
    ∃ t, answerTx a s = .next t := by
  unfold answerTx
  rw [if_pos h]
  cases a <;> exact ⟨_, rfl⟩

theorem answerRx_next (a : RxAnswer) (h : s.seq.receives = true) : ∃ t, answerRx a s = .next t := by
  unfold answerRx
  rw [if_pos h]
  cases a <;> exact ⟨_, rfl⟩

theorem timerReport_next (h : s.seq = .wait) : ∃ t, timerReport s = .next t :=
  ⟨_, if_pos h⟩

/-- What the outstanding request says of the position (R42, R48). -/
theorem frame_of_pend_tx {b : Byte} (hi : Invariant s) (hp : s.pend = .tx b) :
    s.seq.frame s.work = some b := by
  simpa [pendFits, hp] using hi.pend

theorem receives_of_pend_rx (hi : Invariant s) (hp : s.pend = .rx) : s.seq.receives = true := by
  simpa [pendFits, hp] using hi.pend

theorem seq_of_pend_wait (hi : Invariant s) (hp : s.pend = .wait) : s.seq = .wait := by
  simpa [pendFits, hp] using hi.pend

theorem tick_next (hi : Invariant s) : ∃ t, tick s = .next t := by
  cases hp : s.pend <;> simp only [tick, hp]
  case none => exact ⟨_, rfl⟩
  case tx b => exact answerTx_next (s := drawn s) _ (by simp [frame_of_pend_tx hi hp])
  case rx =>
    have hr := receives_of_pend_rx hi hp
    exact answerRx_next (s := drawn s) _ hr
  case wait => exact timerReport_next (seq_of_pend_wait hi hp)

theorem step_turn_next (hi : Invariant s) (ht : Turn s) : ∃ t, step s = .next t := by
  cases hf : fetch s with
  | some c => rw [step_of_fetch hf]; exact runCode_next c _
  | none =>
    rw [step_of_fetch_none hf, agentStep_turn ht]
    exact tick_next (invariant_congr hi rfl rfl rfl rfl rfl rfl rfl rfl)

/-- Under the invariant a step has a next state, but for a host access that R62 refuses. -/
theorem step_next_or_refused (hi : Invariant s) : (∃ t, step s = .next t) ∨
    ∃ a rest r, s.inputs = .host a :: rest ∧ accessCode a = .error r ∧ step s = .refused r := by
  cases hin : s.inputs with
  | nil => exact .inl (step_turn_next hi (.inl hin))
  | cons i rest =>
    cases i with
    | tick => exact .inl (step_turn_next hi (.inr ⟨rest, hin⟩))
    | host a =>
      cases hc : accessCode a with
      | ok c => exact .inl (step_host_next hin hc)
      | error r => exact .inr ⟨a, rest, r, rfl, hc, step_host_error hin hc⟩
    | poll => exact .inl ⟨_, step_poll hin⟩
    | blockReset => exact .inl ⟨_, step_blockReset hin⟩
    | tx a =>
      left
      by_cases hp : ∃ b, s.pend = .tx b
      · obtain ⟨b, hp⟩ := hp
        rw [step_tx hin hp]
        exact answerTx_next (s := { s with inputs := rest }) a (by simp [frame_of_pend_tx hi hp])
      · exact ⟨_, step_tx_ignored hin (not_exists.1 hp)⟩
    | rx a =>
      left
      by_cases hp : s.pend = .rx
      · have hr := receives_of_pend_rx hi hp
        rw [step_rx hin hp]
        exact answerRx_next (s := { s with inputs := rest }) a hr
      · exact ⟨_, step_rx_ignored hin hp⟩
    | timer ms =>
      left
      by_cases hp : s.pend = .wait
      · have hq := seq_of_pend_wait hi hp
        rw [step_timer hin hp]
        split
        · exact timerReport_next (s := { s with inputs := rest }) hq
        · exact ⟨_, rfl⟩
      · exact ⟨_, step_timer_ignored hin hp⟩

/-- Settles O54: a step is a next state or one of R62's refusals, so never a fault. -/
theorem machineGoesOn : Obligations.MachineGoesOn := by
  refine fun s hi => ⟨fun f hf => ?_, fun hacc => ?_⟩
  · rcases step_next_or_refused hi with ⟨t, h⟩ | ⟨_, _, r, -, -, h⟩ <;> rw [h] at hf <;> cases hf
  · rcases step_next_or_refused hi with h | ⟨a, rest, r, hin, hr, -⟩
    · exact h
    · obtain ⟨c, hc⟩ := hacc a rest hin
      rw [hc] at hr
      cases hr

/-! ## The idle block (R74, R242) -/

/-- Its own turn moves nothing but the script. -/
theorem step_turn_idle (hi : Invariant s) (hb : s.status.busy = false) (ht : Turn s) :
    step s = .next (advance s) := by
  obtain ⟨hq, hp, -, -⟩ := idle_block hi hb
  rw [step_turn_silent ht hp (by simp [sequencerCode, hq, Seq.frame])]
  simp [sequencerStep, hq]

/-- Only the registers the host writes, the byte it last read and the script differ. -/
def OnlyHostWrites (s t : State) : Prop :=
  t = { s with data := t.data, crc := t.crc, rdata := t.rdata, inputs := t.inputs }

/-- With an idle block only a CMD write and block reset reach further. -/
theorem step_idle (hi : Invariant s) (hb : s.status.busy = false) (h : step s = .next t)
    (hcmd : ∀ v rest, s.inputs ≠ hostWrite 0x00#5 v :: rest)
    (hreset : ∀ rest, s.inputs ≠ .blockReset :: rest) : OnlyHostWrites s t := by
  by_cases ht : Turn s
  · cases (step_turn_idle hi hb ht).symm.trans h
    rfl
  · obtain ⟨-, hp, -, -⟩ := idle_block hi hb
    cases step_cases h with
    | cmd v l _ hin => exact absurd hin (hcmd v l)
    | blockReset l hin => exact absurd hin (hreset l)
    | data | crc | crcin | read | quiet => rfl
    | frame _ _ ht' | command _ _ _ ht' | seq _ ht' => exact absurd ht' ht
    | taken _ _ _ hp' | received _ _ _ hp' | waited _ hp' => cases hp.symm.trans hp'
    | failed _ _ _ _ hp' =>
      rcases hp' with ⟨⟨b, hp'⟩, -⟩ | ⟨hp', -⟩ <;> cases hp.symm.trans hp'

/-- Settles O60, from what an idle block's steps leave alone and what the invariant says of it. -/
theorem idleBlockKeepsItsResults : Obligations.IdleBlockKeepsItsResults := by
  refine fun s hi hb => ⟨fun hin => ?_, fun rest hin => ?_, fun t h hcmd hreset => ?_⟩
  · rw [step_turn_idle hi hb (.inl hin), advance, hin, List.tail_nil, ← hin]
  · rw [step_turn_idle hi hb (turn_tick hin), advance_eq hin]
  · obtain ⟨hq, hp, ht, -⟩ := idle_block hi hb
    have hst := step_idle hi hb h hcmd hreset
    rw [OnlyHostWrites] at hst
    rw [hst]
    exact ⟨rfl, rfl, rfl, rfl, rfl, rfl, hq, hp, ht⟩

end Sys2Proof.Machine
end

section
/-! The readback of writeByte (R97, R127): each echo's bit 0 enters at bit 7 and moves down by one with every
echo after it. -/

namespace Sys2Proof.Machine

theorem getLsbD_accumulate_top (acc r : Byte) : (accumulate acc r).getLsbD 7 = r.getLsbD 0 := by
  unfold accumulate readBit
  cases r.getLsbD 0 <;> simp [bitByte]

theorem getLsbD_accumulate_below (acc r : Byte) {i : Nat} (hi : i < 7) :
    (accumulate acc r).getLsbD i = acc.getLsbD (i + 1) := by
  simp [accumulate, hi, Nat.add_comm 1 i]

/-- The bits already read move down by one for every echo. -/
theorem getLsbD_foldl_accumulate_old (es : List Byte) (acc : Byte) {i : Nat} (hi : i + es.length < 8) :
    (es.foldl accumulate acc).getLsbD i = acc.getLsbD (i + es.length) := by
  induction es generalizing acc with
  | nil => rfl
  | cons r es ih =>
    rw [List.length_cons] at hi ⊢
    rw [List.foldl_cons, ih _ (by omega), getLsbD_accumulate_below _ _ (by omega), Nat.add_assoc]

/-- The echoes fill the byte from its top, the last one at bit 7. -/
theorem getLsbD_foldl_accumulate_new (es : List Byte) (acc : Byte) (h8 : es.length ≤ 8) {k : Nat}
    (hk : k < es.length) :
    (es.foldl accumulate acc).getLsbD (8 - es.length + k) = es[k].getLsbD 0 := by
  induction es generalizing acc k with
  | nil => cases hk
  | cons r es ih =>
    simp only [List.length_cons] at h8 hk ⊢
    rw [List.foldl_cons]
    cases k with
    | zero =>
      rw [getLsbD_foldl_accumulate_old _ _ (by omega), show 8 - (es.length + 1) + 0 + es.length = 7 by omega,
        getLsbD_accumulate_top, List.getElem_cons_zero]
    | succ k =>
      rw [show 8 - (es.length + 1) + (k + 1) = 8 - es.length + k by omega, ih _ (by omega) (by omega),
        List.getElem_cons_succ]

/-- Settles O32: eight echoes fill the byte from bit 0 on. -/
theorem readbackBitIsEchoBit : Obligations.ReadbackBitIsEchoBit := by
  intro echoes i
  have hlen : echoes.toList.length = 8 := Vector.length_toList
  have h := getLsbD_foldl_accumulate_new echoes.toList 0x00#8 hlen.le (k := i.val) (by simp)
  simpa [readback, hlen] using h

end Sys2Proof.Machine
end

section
/-! Every command ends (R71, R73): a bound on the steps still to come, which every step of the block's own
lowers. -/

namespace Sys2Proof.Machine

open Sys2Proof.Safety

variable {s t : State}

/-! ## The bound -/

/-- The most steps after a call of writeByte has returned, up to the commit and with it: 32 for every further
call, 6 for a bus reset, 2 for the Wait. -/
def ByteCall.stepsAfter : ByteCall → Nat
  | .xbyte | .write | .read => 1
  | .romCommand => 32 * 8 + 1
  | .romByte k => 32 * (7 - k.val) + 1
  | .tempSkip1 => 32 * 12 + 9
  | .tempConvert => 32 * 11 + 9
  | .tempSkip2 => 32 * 10 + 1
  | .tempReadSp => 32 * 9 + 1
  | .tempByte k => 32 * (8 - k.val) + 1

/-- The most steps after a call of busReset has returned. -/
def ResetCall.stepsAfter : ResetCall → Nat
  | .cmd => 1
  | .rom => 32 * 9 + 1
  | .temp1 => 32 * 13 + 9
  | .temp2 => 32 * 11 + 1

/-- The most steps from a position at which nothing is outstanding to BUSY = 0: a request is one step to issue
and one to answer (log 3). -/
def Seq.stepsLeft : Seq → Nat
  | .idle => 0
  | .cfgReset c => c.stepsAfter + 6
  | .txPulse c => c.stepsAfter + 5
  | .rxEcho c => c.stepsAfter + 3
  | .cfgNormal c _ => c.stepsAfter + 1
  | .txBit => 5
  | .rxBit => 3
  | .txByte c i => c.stepsAfter + 16 + 2 * (8 - i.val)
  | .rxByte c i => c.stepsAfter + 2 * (8 - i.val)
  | .wait => 32 * 11 + 9
  | .commit => 1

/-- The most steps from a state to BUSY = 0: an outstanding request has been issued already. -/
def stepsLeft (s : State) : Nat :=
  if s.pend = .none then s.seq.stepsLeft else s.seq.stepsLeft - 1

theorem ByteCall.stepsAfter_pos (c : ByteCall) : 0 < c.stepsAfter := by
  cases c <;> simp [ByteCall.stepsAfter]

theorem ResetCall.stepsAfter_pos (c : ResetCall) : 0 < c.stepsAfter := by
  cases c <;> decide

theorem ByteCall.stepsAfter_le (c : ByteCall) : c.stepsAfter ≤ 32 * 12 + 9 := by
  cases c <;> simp only [ByteCall.stepsAfter] <;> omega

theorem ResetCall.stepsAfter_le (c : ResetCall) : c.stepsAfter ≤ 32 * 13 + 9 := by
  cases c <;> decide

theorem Seq.stepsLeft_le (q : Seq) : q.stepsLeft ≤ 431 := by
  cases q
  case cfgReset c | txPulse c | rxEcho c | cfgNormal c _ =>
    have := c.stepsAfter_le; simp only [Seq.stepsLeft]; omega
  case txByte c i | rxByte c i => have := c.stepsAfter_le; simp only [Seq.stepsLeft]; omega
  all_goals decide

theorem Seq.stepsLeft_pos {q : Seq} (h : q ≠ .idle) : 0 < q.stepsLeft := by
  cases q
  case idle => exact absurd rfl h
  case rxByte c i => exact Nat.add_pos_left c.stepsAfter_pos _
  all_goals simp [Seq.stepsLeft]

theorem stepsLeft_le_seq (s : State) : stepsLeft s ≤ s.seq.stepsLeft := by
  unfold stepsLeft
  split <;> omega

theorem stepsLeft_ready (h : s.pend = .none) : stepsLeft s = s.seq.stepsLeft := if_pos h

theorem stepsLeft_pending (h : s.pend ≠ .none) : stepsLeft s = s.seq.stepsLeft - 1 := if_neg h

/-- A request that is issued at a position. -/
theorem stepsLeft_lt_of_issued (hs : s.seq ≠ .idle) (hq : t.seq = s.seq) (hp : t.pend ≠ .none) :
    stepsLeft t < s.seq.stepsLeft := by
  rw [stepsLeft_pending hp, hq]
  exact Nat.sub_one_lt (Nat.ne_of_gt (Seq.stepsLeft_pos hs))

/-! ## What one move of the sequencer takes off it -/

section
variable (h : ∀ r, s.seq ≠ .txPulse r ∧ s.seq ≠ .rxEcho r)
include h

theorem raiseFail_seq_outside_try {k : ResultCode} : (raiseFail k s).seq = .commit := by
  rw [raiseFail_outside_try h, finish_seq]

theorem verify_seq {r : Byte} {go : State → State} :
    (verify r go s).seq = (go s).seq ∨ (verify r go s).seq = .commit := by
  by_cases hr : r = s.work.b
  · rw [verify_eq hr]; exact .inl rfl
  · rw [verify_ne hr]; exact .inr (raiseFail_seq_outside_try h)

theorem romCheck_seq : (romCheck s).seq = .commit := by
  rw [romCheck_eq h, finish_seq]

theorem tempCheck_seq : (tempCheck s).seq = .commit := by
  obtain ⟨code, -, e⟩ := tempCheck_eq h
  rw [e, finish_seq]

end

/-- A call of writeByte goes on to its next call, the Wait or the commit. -/
theorem byteDone_stepsLeft {c : ByteCall} {i : Fin 8} (r : Byte) (hq : s.seq = .rxByte c i) :
    (byteDone c r s).seq.stepsLeft ≤ c.stepsAfter := by
  have hn : ∀ r, s.seq ≠ .txPulse r ∧ s.seq ≠ .rxEcho r := by simp [hq]
  have committed {t : State} (h : t.seq = .commit) : t.seq.stepsLeft ≤ c.stepsAfter := by
    rw [h]; exact c.stepsAfter_pos
  have verified {go : State → State} (h : (go s).seq.stepsLeft ≤ c.stepsAfter) :
      (verify r go s).seq.stepsLeft ≤ c.stepsAfter := by
    rcases verify_seq hn (r := r) (go := go) with e | e
    · rw [e]; exact h
    · exact committed e
  cases c with
  | xbyte | read => exact committed rfl
  | write =>
    simp only [byteDone]
    split
    · exact committed rfl
    · refine committed (raiseFail_seq_outside_try ?_)
      exact hn
  | romCommand | tempSkip1 | tempConvert | tempSkip2 | tempReadSp => exact verified (Nat.le_refl _)
  | romByte k =>
    simp only [byteDone, romByteDone]
    split
    · exact committed (romCheck_seq hn)
    · next hk =>
      have hv : (k + 1).val = k.val + 1 := Fin.val_add_one_of_lt (Fin.lt_last_iff_ne_last.2 hk)
      simp only [enterByte_seq, Seq.stepsLeft, ByteCall.stepsAfter, hv]
      omega
  | tempByte k =>
    simp only [byteDone, tempByteDone]
    split
    · exact committed (tempCheck_seq hn)
    · next hk =>
      have hv : (k + 1).val = k.val + 1 := Fin.val_add_one_of_lt (Fin.lt_last_iff_ne_last.2 hk)
      simp only [enterByte_seq, Seq.stepsLeft, ByteCall.stepsAfter, hv]
      omega

/-- A frame that is taken: two steps of the bound, its issue and this answer, are over. -/
theorem txDone_stepsLeft (h : (s.seq.frame s.work).isSome = true) :
    (txDone s).seq.stepsLeft + 2 ≤ s.seq.stepsLeft := by
  cases hq : s.seq <;> simp [hq, Seq.frame] at h <;> simp only [txDone, hq]
  case txPulse | txBit => exact Nat.le_refl _
  case txByte c i =>
    split
    · next hi => subst hi; exact Nat.le_refl _
    · next hi =>
      have hv : (i + 1).val = i.val + 1 := Fin.val_add_one_of_lt (Fin.lt_last_iff_ne_last.2 hi)
      simp only [goto_seq, Seq.stepsLeft, hv]
      omega

/-- A byte that is received, in the same way. -/
theorem rxDone_stepsLeft (v : Byte) (h : s.seq.receives = true) :
    (rxDone v s).seq.stepsLeft + 2 ≤ s.seq.stepsLeft := by
  cases hq : s.seq <;> simp [hq, Seq.receives] at h <;> simp only [rxDone, hq]
  case rxEcho | rxBit => exact Nat.le_refl _
  case rxByte c i =>
    split
    · next hi =>
      subst hi
      exact Nat.add_le_add_right (byteDone_stepsLeft _ rfl) 2
    · next hi =>
      have hv : (i + 1).val = i.val + 1 := Fin.val_add_one_of_lt (Fin.lt_last_iff_ne_last.2 hi)
      simp only [Seq.stepsLeft, hv]
      omega

/-- A position with a request has at least the request and the commit before it. -/
theorem stepsLeft_of_request (h : (s.seq.frame s.work).isSome = true ∨ s.seq.receives = true) :
    3 ≤ s.seq.stepsLeft := by
  cases hq : s.seq <;> simp [hq, Seq.frame, Seq.receives] at h
  case txByte c i | rxByte c i => have := c.stepsAfter_pos; simp only [Seq.stepsLeft]; omega
  all_goals simp [Seq.stepsLeft]

/-- A request that fails, in the same way: what is left is the finally, if any, and the commit. -/
theorem raiseFail_stepsLeft (k : ResultCode)
    (h : (s.seq.frame s.work).isSome = true ∨ s.seq.receives = true) :
    (raiseFail k s).seq.stepsLeft + 2 ≤ s.seq.stepsLeft := by
  rcases raiseFail_cases k s with ⟨r, hq | hq, e⟩ | ⟨-, e⟩ <;> rw [e]
  · simp [hq, Seq.stepsLeft]
  · simp [hq, Seq.stepsLeft]
  · exact stepsLeft_of_request h

/-- What a bus reset is followed by. -/
theorem resetFinally_stepsLeft {c : ResetCall} {raised : Bool} (hq : s.seq = .cfgNormal c raised) :
    (resetFinally c raised s).seq.stepsLeft ≤ c.stepsAfter := by
  have hcommit : Seq.stepsLeft .commit ≤ c.stepsAfter := c.stepsAfter_pos
  cases raised with
  | true => exact hcommit
  | false =>
    simp only [resetFinally, resetDone, Bool.false_eq_true, if_false]
    split
    · cases c <;> exact Nat.le_refl _
    · rw [raiseFail_seq_outside_try (by simp [hq])]; exact hcommit

/-- With nothing outstanding the sequencer issues a request or ends a LineCfg or the command. -/
theorem sequencerStep_stepsLeft (hq : s.seq ≠ .idle) (hf : s.seq.frame s.work = none) :
    stepsLeft (sequencerStep s) < s.seq.stepsLeft := by
  cases h : s.seq <;> simp [h, Seq.frame] at hq hf <;> simp only [sequencerStep, h]
  case cfgReset | commit => exact Nat.lt_succ_of_le (stepsLeft_le_seq _)
  case cfgNormal c raised =>
    exact Nat.lt_succ_of_le ((stepsLeft_le_seq _).trans (resetFinally_stepsLeft h))
  case rxEcho | rxBit | rxByte | wait =>
    rw [← h]
    exact stepsLeft_lt_of_issued (by simp [h]) rfl nofun

/-! ## One step -/

/-- A step of the block's own lowers the bound while a command runs. -/
theorem step_turn_stepsLeft (hq : s.seq ≠ .idle) (hin : s.inputs = []) (h : step s = .next t) :
    stepsLeft t < stepsLeft s := by
  have answered {u t : State} (hu : u.seq = s.seq) (hp : s.pend ≠ .none)
      (h : t.seq.stepsLeft + 2 ≤ u.seq.stepsLeft) : stepsLeft t < stepsLeft s := by
    rw [stepsLeft_pending hp, ← hu]
    have := stepsLeft_le_seq t
    omega
  cases step_cases h with
  | cmd _ _ _ hin' | data _ _ hin' | crc _ _ hin' | crcin _ _ hin' | blockReset _ hin' =>
    cases hin.symm.trans hin'
  | read _ _ hin' => simp [hin] at hin'
  | quiet _ hin' => simp [hin] at hin'
  | frame _ _ _ hp | command _ _ _ _ hp =>
    rw [stepsLeft_ready hp]
    exact stepsLeft_lt_of_issued hq rfl nofun
  | seq l _ hp hf =>
    rw [stepsLeft_ready hp]
    exact sequencerStep_stepsLeft (s := { s with inputs := l }) hq hf
  | taken b l n hp hf =>
    exact answered (u := { s with inputs := l, draws := n, pend := .none }) rfl (by simp [hp])
      (txDone_stepsLeft hf)
  | received v l n hp hr =>
    exact answered (u := { s with inputs := l, draws := n, pend := .none }) rfl (by simp [hp])
      (rxDone_stepsLeft v hr)
  | failed c l n _ hp =>
    refine answered (u := { s with inputs := l, draws := n, pend := .none }) rfl ?_
      (raiseFail_stepsLeft c (hp.imp And.right And.right))
    rcases hp with ⟨⟨b, hp⟩, -⟩ | ⟨hp, -⟩ <;> simp [hp]
  | waited l hp hs => exact answered (u := s) rfl (by simp [hp]) (by rw [hs]; exact Nat.le_refl _)

/-! ## The script stays empty -/

theorem answerTx_inputs {a : TxAnswer} (h : answerTx a s = .next t) : t.inputs = s.inputs := by
  unfold answerTx at h
  split at h
  · cases a <;> cases h
    · exact (keeps_txDone _).inputs
    · exact (keeps_raiseFail _ _).inputs
    · exact (keeps_raiseFail _ _).inputs
  · cases h

theorem answerRx_inputs {a : RxAnswer} (h : answerRx a s = .next t) : t.inputs = s.inputs := by
  unfold answerRx at h
  split at h
  · cases a <;> cases h
    · exact (keeps_rxDone _ _).inputs
    · exact (keeps_raiseFail _ _).inputs
    · exact (keeps_raiseFail _ _).inputs
  · cases h

theorem timerReport_inputs (h : timerReport s = .next t) : t.inputs = s.inputs := by
  unfold timerReport at h
  split at h <;> cases h
  rfl

theorem sequencerStep_inputs (s : State) : (sequencerStep s).inputs = s.inputs := by
  rcases sequencerStep_cases s with ⟨-, e⟩ | ⟨_, -, k⟩ | ⟨_, _, -, k⟩ | k
  · rw [e]; rfl
  all_goals exact k.inputs

theorem tick_inputs (h : tick s = .next t) : t.inputs = s.inputs := by
  cases hp : s.pend <;> simp only [tick, hp] at h
  case none => cases h; exact sequencerStep_inputs s
  case tx => exact answerTx_inputs (s := drawn s) h
  case rx => exact answerRx_inputs (s := drawn s) h
  case wait => exact timerReport_inputs h

/-- A frame or a command byte leaves the script alone. -/
theorem runCode_sequencerCode_inputs {k : Code} (hk : sequencerCode s = some k) {u : State}
    (h : runCode k u = .next t) : t.inputs = u.inputs := by
  rcases sequencerCode_cases hk with ⟨b, rfl⟩ | ⟨b, rfl⟩
  · simp only [runCode, decode, decodeFrame] at h
    split_ifs at h <;> cases h <;> rfl
  · simp only [runCode, decode, decodeWire] at h
    split_ifs at h <;> cases h <;> rfl

theorem step_turn_inputs (ht : Turn s) (h : step s = .next t) : t.inputs = s.inputs.tail := by
  by_cases hp : s.pend = .none
  · cases hk : sequencerCode s with
    | some k => exact runCode_sequencerCode_inputs hk ((step_turn_code ht hp hk).symm.trans h)
    | none =>
      cases (step_turn_silent ht hp hk).symm.trans h
      exact sequencerStep_inputs _
  · exact tick_inputs ((step_turn_pending ht hp).symm.trans h)

/-! ## The run -/

/-- With an empty script a running command ends within its bound. -/
theorem run_stepsLeft (n : Nat) (hn : stepsLeft s ≤ n) (hi : Invariant s) (hin : s.inputs = []) :
    ∃ m t, m ≤ n ∧ run m s = .next t ∧ t.status.busy = false := by
  induction n generalizing s with
  | zero =>
    refine ⟨0, s, Nat.le_refl 0, rfl, hi.idle.1 ?_⟩
    by_contra hq
    obtain ⟨t, h⟩ := step_turn_next hi (.inl hin)
    have := step_turn_stepsLeft hq hin h
    omega
  | succ n ih =>
    by_cases hq : s.seq = .idle
    · exact ⟨0, s, Nat.zero_le _, rfl, hi.idle.1 hq⟩
    · obtain ⟨u, h⟩ := step_turn_next hi (.inl hin)
      have hlt := step_turn_stepsLeft hq hin h
      have hin' : u.inputs = [] := by rw [step_turn_inputs (.inl hin) h, hin, List.tail_nil]
      obtain ⟨m, t, hm, hrun, hb⟩ := ih (by omega) (stepKeepsInv s u hi h) hin'
      exact ⟨m + 1, t, by omega, (run_step h m).trans hrun, hb⟩

/-- Settles O55: the bound is 431 at its highest, at the first LineCfg of READTEMP. -/
theorem everyCommandEnds : Obligations.EveryCommandEnds := fun s hi hin =>
  run_stepsLeft 431 ((stepsLeft_le_seq s).trans s.seq.stepsLeft_le) hi hin

end Sys2Proof.Machine
end

section
/-! The opcode map and what its instructions do at once: the illegal CMD bytes (R93), the frames and command bytes
and the positions that send them (R95, R98), presence (R96) and the poll (R102). -/

namespace Sys2Proof.Machine

open Sys2Proof.Safety

variable {s : State} {rest : List Input}

/-! ## Outstanding frames (R95) -/

theorem slotFrame_eq_or (bit : Bool) : slotFrame bit = 0xFF#8 ∨ slotFrame bit = 0x00#8 := by
  cases bit
  · exact .inr rfl
  · exact .inl rfl

/-- Only busReset's pulse sends the reset frame; every other sending position stands outside its try and sends a
slot frame. -/
theorem Seq.frame_cases {q : Seq} {w : Work} {b : Byte} (h : q.frame w = some b) :
    (∃ c, q = .txPulse c) ∧ b = resetFrame ∨ q.inReset = false ∧ ∃ bit, b = slotFrame bit := by
  cases q with
  | txPulse c => cases h; exact .inl ⟨⟨c, rfl⟩, rfl⟩
  | txBit | txByte => cases h; exact .inr ⟨rfl, _, rfl⟩
  | _ => cases h

/-- Once a slot of writeByte is outstanding, the byte of its call is loaded. -/
theorem b_eq_operand_of_txByte {c : ByteCall} {i : Fin 8} (hi : Invariant s) (hp : s.pend ≠ .none)
    (hq : s.seq = .txByte c i) : s.work.b = c.operand s.work.d := by
  simpa [byteFits, hq, hp] using hi.byte

/-- Settles O30: the outstanding frame is the one its position sends, and LCFG is RESET only inside busReset's
try. -/
theorem framesInTheirConfiguration : Obligations.FramesInTheirConfiguration := by
  intro s b hi hp
  have hf : s.seq.frame s.work = some b := frame_of_pend_tx hi hp
  refine ⟨?_, fun hq => ?_, fun c i hq => ?_⟩
  · rcases Seq.frame_cases hf with ⟨⟨c, hq⟩, rfl⟩ | ⟨hreset, bit, rfl⟩
    · exact .inl ⟨rfl, hi.lcfg.2 (by rw [hq]; rfl), c, hq⟩
    · exact .inr ⟨slotFrame_eq_or bit, lcfg_normal_of_ne (by simp [hi.lcfg, hreset])⟩
  · rw [hq] at hf
    exact (Option.some.inj hf).symm
  · rw [← b_eq_operand_of_txByte hi (by simp [hp]) hq]
    rw [hq] at hf
    exact (Option.some.inj hf).symm

/-! ## The opcode map (R91, R93) -/

/-- Settles O1: each conjunct evaluates the decoder on one code. -/
theorem specCodesDecode : Obligations.SpecCodesDecode :=
  ⟨rfl, rfl, rfl, rfl, rfl, rfl, rfl, rfl, rfl, rfl, rfl, rfl, rfl, rfl⟩

/-- `i` is one of the five ILLCMD rows, carrying the byte `v`. -/
def IsIllcmd (v : Byte) (i : Instr) : Prop :=
  i = .illcmdOpc v ∨ i = .illcmdRsv4 v ∨ i = .illcmdRsv5 v ∨ i = .illcmdRsv6 v ∨ i = .illcmdRsv7 v

/-- A byte from 0x08 on is none of the eight commands, so one of the decoder's last five tests gives its row. -/
theorem isIllcmd_decodeCmd {v : Byte} (h : 8 ≤ v.toNat) : IsIllcmd v (decodeCmd v) := by
  have hne (k : Byte) (hk : k.toNat < 8) : v ≠ k := by rintro rfl; omega
  rw [decodeCmd, if_neg (hne _ (by decide)), if_neg (hne _ (by decide)), if_neg (hne _ (by decide)),
    if_neg (hne _ (by decide)), if_neg (hne _ (by decide)), if_neg (hne _ (by decide)),
    if_neg (hne _ (by decide)), if_neg (hne _ (by decide))]
  split_ifs <;> simp [IsIllcmd]

/-- Settles O4: the eight commands by evaluation, the other bytes by what remains of the decoder. -/
theorem opcodeMapOfCmd : Obligations.OpcodeMapOfCmd :=
  ⟨rfl, rfl, rfl, rfl, rfl, rfl, rfl, rfl, fun _ => isIllcmd_decodeCmd⟩

/-! ## The illegal bytes (R93) -/

theorem exec_illcmd {v : Byte} {i : Instr} (h : IsIllcmd v i) (s : State) :
    exec i s = acceptIllegal v s := by
  rcases h with rfl | rfl | rfl | rfl | rfl <;> rfl

/-- The whole state after an ILLCMD commit inside acceptance: no buffer is copied, and PRES and ECHO get back
what acceptance staged of them (R46). -/
theorem commit_illCmd_latch (opc : Nibble) (s : State) :
    commit .illCmd (latch opc s) = { s with
      result := 0x08#8
      status := { s.status with busy := false, cmderr := false, done := true, err := true }
      work := (latch opc s).work
      seq := .idle } := by
  obtain ⟨hrom, htemp⟩ := no_buffer_commit (o := opc) (c := .illCmd) (.inr rfl)
  simp [commit, latch, hrom, htemp, errOf, codeByte]

theorem exec_illcmd_idle {v : Byte} {i : Instr} (h : IsIllcmd v i) (hb : s.status.busy = false) :
    exec i s = .next { s with
      result := 0x08#8
      status := { s.status with busy := false, cmderr := false, done := true, err := true }
      work := (latch (v.setWidth 4) s).work
      seq := .idle } := by
  rw [exec_illcmd h, acceptIllegal, accept_idle hb, commit_illCmd_latch]

/-- R93's two fields of a CMD byte: RSV is its upper and OPC its lower nibble. -/
theorem rsv_or_opc_illegal_iff (v : Byte) :
    v.extractLsb' 4 4 ≠ 0x0#4 ∨ 8 ≤ (v.extractLsb' 0 4).toNat ↔ 8 ≤ v.toNat := by
  have hrsv : (v.extractLsb' 4 4).toNat = v.toNat / 16 % 16 := by
    simp [BitVec.extractLsb'_toNat, Nat.shiftRight_eq_div_pow]
  have hopc : (v.extractLsb' 0 4).toNat = v.toNat % 16 := by simp [BitVec.extractLsb'_toNat]
  have hv : v.toNat < 256 := v.isLt
  rw [ne_eq, ← BitVec.toNat_inj, hrsv, hopc, BitVec.toNat_ofNat]
  omega

/-- Settles O16: an illegal byte decodes to an ILLCMD row (O4), which commits in an idle block and is rejected in
a busy one (O19). -/
theorem illegalBytesCommitIllcmd : Obligations.IllegalBytesCommitIllcmd := fun s v =>
  ⟨rsv_or_opc_illegal_iff v, fun hv hb => ⟨_, exec_illcmd_idle (isIllcmd_decodeCmd hv) hb, rfl⟩,
    fun _ hb => commandsWhileBusySetCmderr s v hb⟩

/-- Settles O17: the state the commit leaves, read at every offset but those of STATUS and RESULT. -/
theorem illcmdInstructionsComplete : Obligations.IllcmdInstructionsComplete := by
  intro s v i hi hb
  refine ⟨_, exec_illcmd_idle hi hb, rfl, rfl, rfl, rfl, rfl, rfl, fun off hst hres => ?_⟩
  simp only [readReg, hst, hres, if_false]

/-! ## Line requests (R95, R98) -/

/-- Settles O28: each instruction is `lineTx` of its frame. -/
theorem framesAreRequested : Obligations.FramesAreRequested := fun _ => ⟨rfl, rfl, rfl⟩

/-- Settles O29: each instruction is `beginOwWrite` of its command byte. -/
theorem commandBytesBegin : Obligations.CommandBytesBegin := fun _ => ⟨rfl, rfl, rfl, rfl⟩

/-- Settles O31. -/
theorem presenceDecode : Obligations.PresenceDecode := presence_iff

/-- The slot instruction of a bit requests the bit's frame. -/
theorem exec_slot (bit : Bool) (s : State) :
    exec (if bit then .busSlot1 else .busSlot0) s = .next (lineTx (slotFrame bit) s) := by
  cases bit <;> rfl

/-- Settles O7: the step at each sending position is the request that the position's instruction makes. -/
theorem sendingPositionsRunTheirInstruction : Obligations.SendingPositionsRunTheirInstruction := by
  intro s rest hin hp
  have ht : Turn s := hin.imp And.left fun h => ⟨rest, h⟩
  have hadv : advance s = { s with inputs := rest } := by
    rcases hin with ⟨hin, rfl⟩ | hin <;> simp [advance, hin]
  rw [← hadv]
  refine ⟨fun c hq => step_turn_txPulse ht hp hq, fun hq => ?_, fun c i hq hi => ?_,
    fun hq => step_turn_command ht hp hq rfl, fun hq => step_turn_command ht hp hq rfl,
    fun hq => step_turn_command ht hp hq rfl, fun hq => step_turn_command ht hp hq rfl,
    fun hq => step_turn_command ht hp hq rfl⟩
  · rw [step_turn_txBit ht hp hq]
    exact (exec_slot _ _).symm
  · rw [step_turn_txByte ht hp hq hi, exec_slot]

/-! ## The poll (R102) -/

/-- Settles O14: `pollStep` is a read of STATUS and the script that follows from BUSY. -/
theorem pollReadsStatusUntilIdle : Obligations.PollReadsStatusUntilIdle := by
  intro s rest h
  rw [step_poll h]
  rfl

end Sys2Proof.Machine
end

section
/-! NOP (R130), what the answer to a line request does (R121, R122, R201), and what ends a Wait and what does not
(R123). -/

namespace Sys2Proof.Machine

open Sys2Proof.Safety

variable {s t : State} {rest : List Input}

/-! ## NOP (R130) -/

/-- The commit of NOP inside its acceptance: no buffer is copied, and PRES and ECHO get back what acceptance
staged of them. -/
theorem commit_ok_latch_nop (s : State) :
    commit .ok (latch 0x0#4 s) = { s with
      result := 0x00#8
      status := { s.status with busy := false, cmderr := false, done := true, err := false }
      work := (latch 0x0#4 s).work
      seq := .idle } := by
  obtain ⟨hrom, htemp⟩ := no_buffer_commit (o := 0x0#4) (c := .ok) (.inl ⟨rfl, rfl⟩)
  simp [commit, latch, hrom, htemp, errOf, codeByte]

/-- Settles O15: NOP is acceptance with the commit as its body. -/
theorem nopCommitsOk : Obligations.NopCommitsOk := by
  refine ⟨fun s => ⟨fun hb => ?_, fun hb => accept_busy hb _ _⟩, _, rfl, by decide, by decide⟩
  have hexec : exec .nop s = .next (commit .ok (latch 0x0#4 s)) := accept_idle hb _ _
  rw [hexec, commit_ok_latch_nop]
  exact ⟨_, rfl, rfl⟩

/-! ## Answered requests (R121, R122, R201) -/

/-- A frame that the transport takes. -/
theorem step_tx_ok {b : Byte} (hin : s.inputs = .tx .ok :: rest) (hp : s.pend = .tx b)
    (hf : (s.seq.frame s.work).isSome = true) :
    step s = .next (txDone { s with inputs := rest, pend := .none }) := by
  rw [step_tx hin hp]
  exact if_pos hf

/-- The code a failed answer to a `Tx` raises (R121). -/
def txFailure : TxAnswer → Option ResultCode
  | .ok => none
  | .timeout => some .timeout
  | .ioError => some .ioErr

/-- The code a failed answer to an `Rx` raises (R122). -/
def rxFailure : RxAnswer → Option ResultCode
  | .byte _ => none
  | .timeout => some .timeout
  | .ioError => some .ioErr

theorem answerTx_failed {a : TxAnswer} {code : ResultCode} (ha : txFailure a = some code)
    (hf : (s.seq.frame s.work).isSome = true) :
    answerTx a s = .next (raiseFail code (clearPend s)) := by
  cases a <;> cases ha <;> exact if_pos hf

theorem answerRx_failed {a : RxAnswer} {code : ResultCode} (ha : rxFailure a = some code)
    (hr : s.seq.receives = true) : answerRx a s = .next (raiseFail code (clearPend s)) := by
  cases a <;> cases ha <;> exact if_pos hr

theorem step_tx_failed {a : TxAnswer} {b : Byte} {code : ResultCode} (ha : txFailure a = some code)
    (hin : s.inputs = .tx a :: rest) (hp : s.pend = .tx b)
    (hf : (s.seq.frame s.work).isSome = true) :
    step s = .next (raiseFail code { s with inputs := rest, pend := .none }) := by
  rw [step_tx hin hp]
  exact answerTx_failed ha hf

theorem step_rx_failed {a : RxAnswer} {code : ResultCode} (ha : rxFailure a = some code)
    (hin : s.inputs = .rx a :: rest) (hp : s.pend = .rx) (hr : s.seq.receives = true) :
    step s = .next (raiseFail code { s with inputs := rest, pend := .none }) := by
  rw [step_rx hin hp]
  exact answerRx_failed ha hr

theorem raiseFail_inside_try {code : ResultCode} {c : ResetCall}
    (h : s.seq = .txPulse c ∨ s.seq = .rxEcho c) :
    raiseFail code s = { s with seq := .cfgNormal c true, work.sCode := code } := by
  rcases h with h | h <;> simp only [raiseFail, h]

/-- Settles O33: under the invariant the request fits the position, so the answer is a raise, and the raise goes to
busReset's finally exactly inside its try. -/
theorem failedRequestsRaise : Obligations.FailedRequestsRaise := by
  intro s rest code hi h
  have hstep : step s = .next (raiseFail code { s with inputs := rest, pend := .none }) := by
    rcases h with ⟨⟨b, hp⟩, hin⟩ | ⟨hp, hin⟩
    · have hf : (s.seq.frame s.work).isSome = true := by simp [frame_of_pend_tx hi hp]
      rcases hin with ⟨hin, rfl⟩ | ⟨hin, rfl⟩
      · exact step_tx_failed rfl hin hp hf
      · exact step_tx_failed rfl hin hp hf
    · have hr := receives_of_pend_rx hi hp
      rcases hin with ⟨hin, rfl⟩ | ⟨hin, rfl⟩
      · exact step_rx_failed rfl hin hp hr
      · exact step_rx_failed rfl hin hp hr
  rw [hstep]
  refine ⟨fun c hq => ?_, fun hq => ?_⟩
  · rw [raiseFail_inside_try (c := c)]
    exact hq
  · rw [raiseFail_outside_try]
    · rfl
    · exact hq

/-! ## The Wait (R123) -/

/-- Settles O35, from what a timer report does to an outstanding Wait; T_CONV is 800 ms (R8). -/
theorem waitEndsFrom800Ms : Obligations.WaitEndsFrom800Ms := by
  intro s rest ms hp hq hin
  rw [step_timer hin hp]
  refine ⟨fun hms => ?_, fun hms => if_neg (Nat.not_le_of_lt hms)⟩
  rw [if_pos (show tConvMs ≤ ms from hms)]
  exact if_pos hq

/-- `t` has the position of `s`, its outstanding micro-operation and its timer. -/
def SamePosition (s t : State) : Prop := t.seq = s.seq ∧ t.pend = s.pend ∧ t.timer = s.timer

/-- A host write to a busy block does not reach the sequencer: a CMD write is rejected (R46). -/
theorem runCode_write_samePosition {off : Offset} {v : Byte} (hb : s.status.busy = true)
    (h : runCode (.write off v) s = .next t) : SamePosition s t := by
  rcases runCode_write_cases off v s with
    ⟨-, e⟩ | ⟨-, e⟩ | ⟨-, e⟩ | ⟨-, e⟩ | ⟨-, -, -, -, e⟩ <;> rw [e] at h
  · rw [commandsWhileBusySetCmderr s v hb] at h
    cases h; exact ⟨rfl, rfl, rfl⟩
  all_goals cases h; exact ⟨rfl, rfl, rfl⟩

/-- No host access to a busy block reaches the sequencer. -/
theorem step_host_samePosition {a : Access} (hin : s.inputs = .host a :: rest)
    (hb : s.status.busy = true) (h : step s = .next t) : SamePosition s t := by
  rcases accessCode_cases a with ⟨off, v, rfl, -, hc⟩ | ⟨off, rfl, -, hc⟩ | ⟨r, hc⟩
  · rw [step_host_ok hin hc] at h
    exact runCode_write_samePosition (s := { s with inputs := rest }) hb h
  · rw [step_host_ok hin hc, runCode_read] at h
    cases h; exact ⟨rfl, rfl, rfl⟩
  · rw [step_host_error hin hc] at h; cases h

/-- Settles O36, by the head of the script: a host access does not reach the sequencer, a poll is a read, and an
answer fits no Wait. -/
theorem nothingCancelsTheWait : Obligations.NothingCancelsTheWait := by
  intro s t hp hq hb h hnil htick htimer hreset
  have hsame : SamePosition s t := by
    cases hin : s.inputs with
    | nil => exact absurd hin hnil
    | cons i rest =>
      cases i with
      | tick => exact absurd hin (htick rest)
      | timer ms => exact absurd hin (htimer ms rest)
      | blockReset => exact absurd hin (hreset rest)
      | host a => exact step_host_samePosition hin hb h
      | poll => cases (step_poll hin).symm.trans h; exact ⟨rfl, rfl, rfl⟩
      | tx a => cases (step_tx_ignored hin (by simp [hp])).symm.trans h; exact ⟨rfl, rfl, rfl⟩
      | rx a => cases (step_rx_ignored hin (by simp [hp])).symm.trans h; exact ⟨rfl, rfl, rfl⟩
  obtain ⟨hseq, hpend, htime⟩ := hsame
  exact ⟨hpend.trans hp, hseq.trans hq, htime⟩

end Sys2Proof.Machine
end

section
/-! The bus driver's commands from their acceptance to their commit: RESET with every end of its one bus reset
(R125, R131), and the exchanges WBIT, XBYTE, WRITE and READ (R126 to R129, R132 to R135). -/

namespace Sys2Proof.Machine

open Sys2Proof.Safety

variable {s t u : State} {rest : List Input} {op : Nibble} {m : LineCfg} {pres : Bool} {e : Byte}

/-! ## A running command -/

/-- The flags of an accepted command that clears no buffer (R46), with the line configuration `m`. -/
def accepted (m : LineCfg) (s : State) : State :=
  { s with status := { s.status with busy := true, cmderr := false, done := false, err := false, lcfg := m } }

/-- `t` runs the command `op` that was accepted in `s`: it is ready at `q` under the script `l`, LCFG is `m`, PRES
and ECHO are staged as `pres` and `e`, and no other register has changed since the acceptance. -/
structure InCommand (s : State) (op : Nibble) (m : LineCfg) (pres : Bool) (e : Byte) (q : Seq)
    (l : List Input) (t : State) : Prop where
  ready : Ready q l t
  staged : Staged op pres e t
  only : OnlyWork (accepted m s) t

/-- A running command moves to another position, and may stage other values of PRES and ECHO. -/
theorem InCommand.move {pres' : Bool} {e' : Byte} {q q' : Seq} {l l' : List Input}
    (h : InCommand s op m pres e q l t) (hr : Ready q' l' u) (hs : Staged op pres' e' u) (hu : OnlyWork t u) :
    InCommand s op m pres' e' q' l' u := by
  refine ⟨hr, hs, ?_⟩
  have ht := h.only
  unfold OnlyWork at ht hu ⊢
  rw [ht] at hu
  exact hu

/-- LineCfg changes nothing of a running command but LCFG (R120). -/
theorem InCommand.withLineCfg {q : Seq} {l : List Input} (h : InCommand s op m pres e q l t) (m' : LineCfg) :
    InCommand s op m' pres e q l (lineCfg m' t) :=
  ⟨⟨h.ready.seq, h.ready.pend, h.ready.inputs⟩, ⟨h.staged.op, h.staged.pres, h.staged.echo⟩,
    congrArg (lineCfg m') h.only⟩

/-- The CMD byte `v` starts the command `op` at `q`, with `load` the byte writeByte finds loaded (R46, R127). -/
def Starts (v : Byte) (op : Nibble) (q : Seq) (load : State → Byte) : Prop :=
  ∀ u, exec (decodeCmd v) u = accept op (fun w => start q { w with work.b := load w }) u

theorem starts_reset : Starts 0x01#8 0x1#4 (.cfgReset .cmd) fun w => w.work.b := fun _ => rfl
theorem starts_wbit : Starts 0x02#8 0x2#4 .txBit fun w => w.work.b := fun _ => rfl
theorem starts_xbyte : Starts 0x03#8 0x3#4 (.txByte .xbyte 0) fun w => w.work.d := fun _ => rfl
theorem starts_write : Starts 0x04#8 0x4#4 (.txByte .write 0) fun w => w.work.d := fun _ => rfl
theorem starts_read : Starts 0x05#8 0x5#4 (.txByte .read 0) fun _ => 0xFF#8 := fun _ => rfl

/-- A command written while BUSY = 0 starts at its first position, with PRES and ECHO staged as they stand and the
operand latched (R46). -/
theorem step_starts {v : Byte} {q : Seq} {load : State → Byte} (hx : Starts v op q load)
    (hb : s.status.busy = false) (hp : s.pend = .none) (h : s.inputs = hostWrite 0x00#5 v :: rest) :
    ∃ t, step s = .next t ∧ t.work.d = s.data ∧
      InCommand s op s.status.lcfg s.status.pres s.echo q rest t :=
  ⟨_, step_accept hx hb h, rfl, ⟨rfl, hp, rfl⟩, ⟨rfl, rfl, rfl⟩, rfl⟩

/-- The commit of a command other than READROM and READTEMP, seen from the state it was accepted in (R45). -/
theorem run_commit_of_inCommand (h : InCommand s op m pres e .commit (.tick :: rest) t)
    (hop : op ≠ 0x6#4 ∧ op ≠ 0x7#4) :
    ∃ u, run 1 t = .next u ∧ u = { s with
      inputs := rest
      result := codeByte t.work.sCode
      status := { s.status with
        busy := false, cmderr := false, done := true, err := errOf t.work.sCode, pres := pres, lcfg := m }
      rxdata := if isExchange op && t.work.sRxv then t.work.sRx else s.rxdata
      echo := e
      work := u.work
      seq := .idle } := by
  obtain ⟨⟨hq, hp, hin⟩, ⟨hwop, hwpres, hwecho⟩, ht⟩ := h
  have hrom : commitsRom op t.work.sCode = false := by simp [commitsRom, hop.1]
  have htemp : commitsTemp op t.work.sCode = false := by simp [commitsTemp, hop.2]
  refine ⟨_, run_commit hq hp hin, ?_⟩
  simp only [commit, hwop, hwpres, hwecho, hrom, htemp]
  rw [OnlyWork] at ht
  rw [ht]
  rfl

/-! ## RESET (R125, R131) -/

/-- RESET's bus reset whose echo arrives ends the command, with or without presence. -/
theorem run_reset_answered {e' : Byte}
    (h : InCommand s op m pres e (.cfgReset .cmd) (resetScript e' ++ rest) t) :
    ∃ u, run 6 t = .next u ∧ InCommand s op .normal (presence e') e' .commit rest u ∧
      u.work.sCode = if presence e' then .ok else .nodevReset := by
  cases he : presence e' with
  | false =>
    obtain ⟨u, hrun, hr, hs, hu, hcode⟩ := run_reset_absent h.ready he
    rw [h.staged.op] at hs
    exact ⟨u, hrun, (h.withLineCfg .normal).move hr hs hu, hcode⟩
  | true =>
    have hrun := run_resetScript e' h.ready.seq h.ready.pend h.ready.inputs
    simp only [resetDone, he, if_true, afterReset] at hrun
    exact ⟨_, hrun, (h.withLineCfg .normal).move ⟨rfl, h.ready.pend, rfl⟩ ⟨h.staged.op, rfl, rfl⟩ rfl,
      rfl⟩

/-- A bus reset has its pulse outstanding; the script is `l`. -/
def pulsed (c : ResetCall) (l : List Input) (t : State) : State :=
  { t with inputs := l, status.lcfg := .reset, work.sPres := false, seq := .txPulse c, pend := .tx resetFrame }

theorem run_pulsed {c : ResetCall} (h : Ready (.cfgReset c) (.tick :: .tick :: rest) t) :
    run 2 t = .next (pulsed c rest t) := by
  rw [run_step (step_turn_silent (turn_tick h.inputs) h.pend (by simp [sequencerCode, h.seq, Seq.frame])),
    advance_eq h.inputs]
  simp only [sequencerStep, h.seq]
  exact run_step (step_turn_txPulse (s := resetBegin c { t with inputs := .tick :: rest }) (turn_tick rfl)
    h.pend rfl) 0

/-- A raise inside busReset's try, then its finally (R201). -/
theorem run_raised {c : ResetCall} {code : ResultCode} (hq : s.seq = .txPulse c ∨ s.seq = .rxEcho c)
    (h : step s = .next (raiseFail code { s with inputs := .tick :: rest, pend := .none })) :
    run 2 s = .next { s with
      inputs := rest, pend := .none, status.lcfg := .normal, seq := .commit, work.sCode := code } := by
  rw [raiseFail_inside_try (c := c)] at h
  · rw [run_step h]
    exact run_step (step_turn_silent (turn_tick rfl) rfl rfl) 0
  · exact hq

/-- A bus reset has its echo asked for; the script is `l`. -/
def echoAsked (c : ResetCall) (l : List Input) (t : State) : State :=
  { pulsed c l t with seq := .rxEcho c, pend := .rx }

theorem run_echoAsked {c : ResetCall} (h : Ready (.cfgReset c) (.tick :: .tick :: .tx .ok :: .tick :: rest) t) :
    run 4 t = .next (echoAsked c rest t) := by
  have htaken : step (pulsed c (.tx .ok :: .tick :: rest) t) =
      .next { echoAsked c (.tick :: rest) t with pend := .none } := step_tx_ok rfl rfl rfl
  have hissued : step { echoAsked c (.tick :: rest) t with pend := .none } = .next (echoAsked c rest t) :=
    step_turn_silent (turn_tick rfl) rfl rfl
  exact (run_add (run_pulsed h) 2).trans ((run_step htaken 1).trans (run_step hissued 0))

/-- A bus reset whose frame fails ends its command after the finally, without asking for an echo. -/
theorem run_reset_frame_failed {c : ResetCall} {a : TxAnswer} {code : ResultCode} (ha : txFailure a = some code)
    (h : InCommand s op m pres e (.cfgReset c) (.tick :: .tick :: .tx a :: .tick :: rest) t) :
    ∃ u, run 4 t = .next u ∧ InCommand s op .normal false e .commit rest u ∧ u.work.sCode = code :=
  ⟨_, (run_add (run_pulsed h.ready) 2).trans (run_raised (.inl rfl) (step_tx_failed ha rfl rfl rfl)),
    (h.withLineCfg .normal).move ⟨rfl, rfl, rfl⟩ ⟨h.staged.op, rfl, h.staged.echo⟩
      (by simp [OnlyWork, lineCfg, pulsed, h.ready.pend]), rfl⟩

/-- A bus reset whose echo fails ends its command in the same way. -/
theorem run_reset_echo_failed {c : ResetCall} {a : RxAnswer} {code : ResultCode} (ha : rxFailure a = some code)
    (h : InCommand s op m pres e (.cfgReset c)
      (.tick :: .tick :: .tx .ok :: .tick :: .rx a :: .tick :: rest) t) :
    ∃ u, run 6 t = .next u ∧ InCommand s op .normal false e .commit rest u ∧ u.work.sCode = code :=
  ⟨_, (run_add (run_echoAsked h.ready) 2).trans (run_raised (.inr rfl) (step_rx_failed ha rfl rfl rfl)),
    (h.withLineCfg .normal).move ⟨rfl, rfl, rfl⟩ ⟨h.staged.op, rfl, h.staged.echo⟩
      (by simp [OnlyWork, lineCfg, echoAsked, pulsed, h.ready.pend]), rfl⟩

/-- RESET from its acceptance to its commit, from what its bus reset does. -/
theorem run_resetCommand {n : Nat} {l : List Input} {code : ResultCode} (hb : s.status.busy = false)
    (hp : s.pend = .none) (hin : s.inputs = hostWrite 0x00#5 0x01#8 :: l)
    (hrun : ∀ t, InCommand s 0x1#4 s.status.lcfg s.status.pres s.echo (.cfgReset .cmd) l t →
      ∃ u, run n t = .next u ∧ InCommand s 0x1#4 .normal pres e .commit (.tick :: rest) u ∧
        u.work.sCode = code) :
    ∃ u, run (n + 2) s = .next u ∧ u = { s with
      inputs := rest
      result := codeByte code
      status := { s.status with
        busy := false, cmderr := false, done := true, err := errOf code, pres := pres, lcfg := .normal }
      echo := e
      work := u.work
      seq := .idle } := by
  obtain ⟨t, hstep, -, ht⟩ := step_starts starts_reset hb hp hin
  obtain ⟨u, hreset, hu, rfl⟩ := hrun t ht
  obtain ⟨w, hcommit, hw⟩ := run_commit_of_inCommand hu (by decide)
  exact ⟨w, (run_step hstep (n + 1)).trans ((run_add hreset 1).trans hcommit), hw⟩

/-- Settles O38: the echo decides presence (R96), and with it the code. -/
theorem resetCommandRuns : Obligations.ResetCommandRuns := by
  intro s e rest hb hp hin
  have h := run_resetCommand hb hp hin fun _ => run_reset_answered
  by_cases he : e = 0x00#8 ∨ e = 0xF0#8
  · simpa [(presence_false_iff e).2 he, he, codeByte, errOf] using h
  · have hpres : presence e = true := (presence_iff e).2 (not_or.1 he)
    simpa [hpres, he, codeByte, errOf] using h

/-- Settles O39: the two codes of a failed answer are those of its two kinds. -/
theorem failedResetRestoresTheLine : Obligations.FailedResetRestoresTheLine := by
  intro s rest code hb hp
  refine ⟨fun a ha hin => ?_, fun a ha hin => ?_⟩
  · rcases ha with ⟨rfl, rfl⟩ | ⟨rfl, rfl⟩
    · exact run_resetCommand hb hp hin fun _ => run_reset_frame_failed rfl
    · exact run_resetCommand hb hp hin fun _ => run_reset_frame_failed rfl
  · rcases ha with ⟨rfl, rfl⟩ | ⟨rfl, rfl⟩
    · exact run_resetCommand hb hp hin fun _ => run_reset_echo_failed rfl
    · exact run_resetCommand hb hp hin fun _ => run_reset_echo_failed rfl

/-! ## The exchanges (R126 to R129, R132 to R135) -/

/-- What an exchange stages for its commit: the byte for RXDATA, and the code. -/
structure Exchanged (r : Byte) (code : ResultCode) (t : State) : Prop where
  sRx : t.work.sRx = r
  sRxv : t.work.sRxv = true
  sCode : t.work.sCode = code

/-- An exchange from its acceptance to its commit, from what its requests do. -/
theorem run_exchange {v r : Byte} {q : Seq} {load : State → Byte} {n : Nat} {l : List Input}
    {code : ResultCode} (hx : Starts v op q load) (hop : isExchange op = true)
    (hb : s.status.busy = false) (hp : s.pend = .none) (hin : s.inputs = hostWrite 0x00#5 v :: l)
    (hrun : ∀ t, t.work.d = s.data → InCommand s op s.status.lcfg s.status.pres s.echo q l t →
      ∃ u, run n t = .next u ∧
        InCommand s op s.status.lcfg s.status.pres s.echo .commit (.tick :: rest) u ∧ Exchanged r code u) :
    ∃ u, run (n + 2) s = .next u ∧ u = { s with
      inputs := rest
      result := codeByte code
      status := { s.status with busy := false, cmderr := false, done := true, err := errOf code }
      rxdata := r
      work := u.work
      seq := .idle } := by
  obtain ⟨t, hstep, hd, ht⟩ := step_starts hx hb hp hin
  obtain ⟨u, hexch, hu, rfl, hrxv, rfl⟩ := hrun t hd ht
  obtain ⟨w, hcommit, hw⟩ := run_commit_of_inCommand hu (by
    rcases (isExchange_iff op).1 hop with rfl | rfl | rfl | rfl <;> decide)
  refine ⟨w, (run_step hstep (n + 1)).trans ((run_add hexch 1).trans hcommit), ?_⟩
  rw [hop, hrxv] at hw
  exact hw

/-- `zext_8` of an echo's bit 0 (R132). -/
theorem bitByte_readBit (r : Byte) : bitByte (readBit r) = r &&& 0x01#8 := by
  revert r; decide

/-- The frame of WBIT's slot, taken by the transport. -/
theorem run_txBit (hq : s.seq = .txBit) (hp : s.pend = .none) (hin : s.inputs = .tick :: .tx .ok :: rest) :
    run 2 s = .next (goto .rxBit { s with inputs := rest }) := by
  rw [run_step (step_turn_txBit (turn_tick hin) hp hq), advance_eq hin,
    run_step (step_tx_ok rfl rfl (by simp [hq, Seq.frame]))]
  simp [txDone, lineTx, hq, ← hp]

/-- The slot of WBIT, its frame taken and its echo received (R126). -/
theorem run_slot {r : Byte}
    (h : InCommand s op m pres e .txBit (.tick :: .tx .ok :: .tick :: .rx (.byte r) :: rest) t) :
    ∃ u, run 4 t = .next u ∧ InCommand s op m pres e .commit rest u ∧ Exchanged (r &&& 0x01#8) .ok u := by
  obtain ⟨hq, hp, hin⟩ := h.ready
  have hrx := run_rx (s := goto .rxBit { t with inputs := .tick :: .rx (.byte r) :: rest }) rfl hp rfl
  exact ⟨_, (run_add (run_txBit hq hp hin) 2).trans hrx,
    h.move ⟨rfl, hp, rfl⟩ ⟨h.staged.op, h.staged.pres, h.staged.echo⟩ rfl, bitByte_readBit r, rfl, rfl⟩

/-- Settles O40: WBIT is the exchange of one slot. -/
theorem wbitCommandRuns : Obligations.WbitCommandRuns := by
  intro s r rest hb hp hin
  exact run_exchange starts_wbit rfl hb hp hin fun _ _ => run_slot

/-- The readback of an exchange is staged for RXDATA. -/
def stageReadback (r : Byte) (s : State) : State := { s with work := { s.work with sRx := r, sRxv := true } }

/-- writeByte of an exchange, all its frames taken and all its echoes received: the command ends with the code
that `byteDone` gives it (R127). -/
theorem run_writeByte {c : ByteCall} {v : Vector Byte 8} {code : ResultCode}
    (h : InCommand s op m pres e (.txByte c 0) (byteScript v.toList ++ rest) t)
    (hdone : ∀ w : State, w.seq = .rxByte c 7 → w.work.d = t.work.d →
      byteDone c (readback v.toList) w = finish code (stageReadback (readback v.toList) w)) :
    ∃ u, run 32 t = .next u ∧ InCommand s op m pres e .commit rest u ∧
      Exchanged (readback v.toList) code u := by
  have hrun := run_byteScript v h.ready.seq h.ready.pend h.ready.inputs
  rw [hdone] at hrun
  · exact ⟨_, hrun, h.move ⟨rfl, h.ready.pend, rfl⟩ ⟨h.staged.op, h.staged.pres, h.staged.echo⟩ rfl,
      rfl, rfl, rfl⟩
  · rfl
  · rfl

/-- Settles O41: XBYTE and READ end with OK whatever the readback is. -/
theorem xbyteAndReadCommandsRun : Obligations.XbyteAndReadCommandsRun := by
  intro s cmd echoes rest hcmd hb hp hin
  rcases hcmd with rfl | rfl
  · exact run_exchange starts_xbyte rfl hb hp hin fun _ _ ht => run_writeByte ht fun _ _ _ => rfl
  · exact run_exchange starts_read rfl hb hp hin fun _ _ ht => run_writeByte ht fun _ _ _ => rfl

/-- WRITE compares the readback with its operand; a mismatch is raised outside busReset's try (R128, R134). -/
theorem byteDone_write {r : Byte} {i : Fin 8} (hq : s.seq = .rxByte .write i) :
    byteDone .write r s = finish (if r = s.work.d then .ok else .nodevWrite) (stageReadback r s) := by
  by_cases hr : r = s.work.d
  · rw [if_pos hr]
    exact if_pos hr
  · rw [if_neg hr]
    exact (if_neg hr).trans (raiseFail_outside_try (by simp [hq]))

/-- Settles O42: the operand is DATA, latched at the acceptance. -/
theorem writeCommandRuns : Obligations.WriteCommandRuns := by
  intro s echoes rest hb hp hin
  have h := run_exchange starts_write rfl hb hp hin fun t hd ht => run_writeByte ht
    (code := if readback echoes.toList = s.data then .ok else .nodevWrite)
    fun w hq hw => by rw [byteDone_write hq, hw, hd]
  by_cases hr : readback echoes.toList = s.data
  · simpa [hr, codeByte, errOf] using h
  · simpa [hr, codeByte, errOf] using h

end Sys2Proof.Machine
end

section
/-! The CRC function is linear and sends only 0x00 to 0x00 (R150 to R152), and the host's operations on the CRC
unit: feeding a byte, loading and reading (R154 to R156). -/

namespace Sys2Proof.Machine

open Sys2Proof.Safety

variable {s : State} {rest : List Input}

/-! ## The function (R150 to R152) -/

/-- The bit shifted out comes back as bit 7, the top bit of 0x8C. -/
theorem crc8Shift_getLsbD_seven (a : Byte) : (crc8Shift a).getLsbD 7 = a.getLsbD 0 := by
  unfold crc8Shift
  cases h : a.getLsbD 0 <;> simp

theorem crc8Shift_eq_zero_iff (a : Byte) : crc8Shift a = 0x00#8 ↔ a = 0x00#8 := by
  refine ⟨fun h => ?_, fun h => by rw [h]; rfl⟩
  have hlow : a.getLsbD 0 = false := by
    rw [← crc8Shift_getLsbD_seven, h]; rfl
  have hhigh : a >>> 1 = 0x00#8 := by rwa [crc8Shift, hlow, if_neg Bool.false_ne_true] at h
  refine BitVec.eq_of_getLsbD_eq fun i _ => ?_
  cases i with
  | zero => exact hlow
  | succ i => simpa [Nat.add_comm] using congrArg (·.getLsbD i) hhigh

theorem crc8Iter_eq_zero_iff (n : Nat) (a : Byte) : crc8Iter n a = 0x00#8 ↔ a = 0x00#8 := by
  induction n generalizing a with
  | zero => rfl
  | succ n ih => exact (ih (crc8Shift a)).trans (crc8Shift_eq_zero_iff a)

theorem crc8Iter_xor (n : Nat) (a b : Byte) : crc8Iter n (a ^^^ b) = crc8Iter n a ^^^ crc8Iter n b := by
  induction n generalizing a b with
  | zero => rfl
  | succ n ih => simp only [crc8Iter, crc8Shift_xor, ih]

/-- Only the accumulator's own value brings the accumulator to 0x00. -/
theorem crc8Byte_eq_zero_iff (c b : Byte) : crc8Byte c b = 0x00#8 ↔ b = c :=
  (crc8Iter_eq_zero_iff 8 (c ^^^ b)).trans (BitVec.xor_eq_zero_iff.trans eq_comm)

@[simp] theorem crc8Byte_self (c : Byte) : crc8Byte c c = 0x00#8 := (crc8Byte_eq_zero_iff c c).2 rfl

/-- The table of R152, `T[x] = crc8_byte(0x00, x)`, is linear. -/
theorem crc8Byte_zero_xor (x y : Byte) :
    crc8Byte 0x00#8 (x ^^^ y) = crc8Byte 0x00#8 x ^^^ crc8Byte 0x00#8 y := by
  simp only [crc8Byte, BitVec.zero_xor, crc8Iter_xor]

theorem crc8_append (as bs : List Byte) : crc8 (as ++ bs) = bs.foldl crc8Byte (crc8 as) :=
  List.foldl_append

theorem crc8_replicate_zero (n : Nat) : crc8 (List.replicate n 0x00#8) = 0x00#8 := by
  induction n with
  | zero => rfl
  | succ n ih => rw [List.replicate_succ', crc8_concat, ih, crc8Byte_self]

/-- A buffer with its trailing byte has CRC 0x00 exactly when it is valid (R152). -/
theorem crc8_concat_eq_zero_iff (bs : List Byte) (v : Byte) : crc8 (bs ++ [v]) = 0x00#8 ↔ v = crc8 bs := by
  rw [crc8_concat, crc8Byte_eq_zero_iff]

/-- Settles O24: the residue rests on `crc8_byte` being 0x00 only at its accumulator, linearity on that of one
iteration. -/
theorem crcProperties : Obligations.CrcProperties :=
  ⟨⟨crc8Byte_self _, crc8_replicate_zero⟩, fun bs => (crc8_concat_eq_zero_iff bs _).2 rfl,
    fun c => by simp only [crc8Byte_self], crc8_concat_eq_zero_iff, crc8Byte_eq_of_xor, crc8Byte_zero_xor,
    by decide +kernel⟩

/-! ## The host's operations (R154 to R156) -/

/-- Settles O21: CRCIN reads as 0x00 (R21), and a byte equal to CRC cancels it. -/
theorem crcinFeedsOneByte : Obligations.CrcinFeedsOneByte :=
  ⟨fun _ _ => rfl, fun _ _ _ h => step_write h, crc8Byte_self,
    fun s rest h => hostReadReturnsTheRegister s rest 0x07#5 h, by decide +kernel⟩

/-- Settles O22: `crc8` is a fold, so it goes on from any accumulator. -/
theorem crcldStores : Obligations.CrcldStores :=
  ⟨fun _ _ => rfl, fun _ _ _ h => step_write h, crc8_append, by decide +kernel, by decide +kernel⟩

/-- Clearing CRC, feeding `bs` through CRCIN and reading CRC returns `crc8 bs` to the host. -/
theorem run_crcRead (bs : List Byte)
    (h : s.inputs = hostWrite 0x06#5 0x00#8 ::
      (bs.map (hostWrite 0x07#5) ++ hostRead1 0x06#5 :: rest)) :
    run (bs.length + 2) s = .next { s with inputs := rest, crc := crc8 bs, rdata := some (crc8 bs) } := by
  have hfed := crcUnitComputesCrc8 s (hostRead1 0x06#5 :: rest) bs h
  have hread := hostReadReturnsTheRegister { s with inputs := hostRead1 0x06#5 :: rest, crc := crc8 bs }
    rest 0x06#5 rfl
  exact (run_add hfed 1).trans (run_step hread 0)

/-- Settles O23: the read returns the CRC of the buffer with its trailing byte, and R152 says when that is
0x00. -/
theorem crcrdReturnsCrc : Obligations.CrcrdReturnsCrc := by
  refine ⟨fun _ => rfl, fun s rest bs v h => ?_, by decide +kernel⟩
  have hrun := run_crcRead (bs ++ [v]) h
  rw [List.length_append, List.length_singleton] at hrun
  exact ⟨_, hrun, by rw [Option.some_inj, crc8_concat_eq_zero_iff]⟩

end Sys2Proof.Machine
end

section
/-! READROM from its acceptance to its commit (R170): its two early ends, the presence that is missing (R125) and
the command byte that is not confirmed (R128), and its eight reads with their check (R153). -/

namespace Sys2Proof.Machine

open Sys2Proof.Safety

variable {s t u : State} {rest : List Input} {op : Nibble} {m : LineCfg} {pres : Bool} {e : Byte}

/-! ## The parts of a running command -/

/-- A bus reset of a running command that sees presence: PRES and ECHO are staged, and the command goes on to `q`
(R125). -/
theorem InCommand.run_presence {c : ResetCall} {q : Seq} {e' : Byte}
    (h : InCommand s op m pres e (.cfgReset c) (resetScript e' ++ rest) t) (he : presence e' = true)
    (hq : ∀ w, afterReset c w = goto q w) :
    ∃ u, run 6 t = .next u ∧ InCommand s op .normal true e' q rest u := by
  obtain ⟨u, hrun, hr, hs, hu⟩ := run_reset_present h.ready he hq
  rw [h.staged.op] at hs
  exact ⟨u, hrun, (h.withLineCfg .normal).move hr hs hu⟩

/-- A bus reset of a running command that sees no presence ends it with NODEV_RESET (R125). -/
theorem InCommand.run_absence {c : ResetCall} {e' : Byte}
    (h : InCommand s op m pres e (.cfgReset c) (resetScript e' ++ rest) t) (he : presence e' = false) :
    ∃ u, run 6 t = .next u ∧ InCommand s op .normal false e' .commit rest u ∧
      u.work.sCode = .nodevReset := by
  obtain ⟨u, hrun, hr, hs, hu, hcode⟩ := run_reset_absent h.ready he
  rw [h.staged.op] at hs
  exact ⟨u, hrun, (h.withLineCfg .normal).move hr hs hu, hcode⟩

/-- A command whose last call has returned in `u` ends with a code, whatever has been read since `t`. -/
theorem InCommand.finish_sameCommand {q : Seq} {l : List Input} {code : ResultCode}
    (h : InCommand s op m pres e q l t) (hu : SameCommand t u) (hin : u.inputs = rest) :
    InCommand s op m pres e .commit rest (finish code u) := by
  have hp : u.pend = .none := by rw [hu.frame]; exact h.ready.pend
  have honly : OnlyWork t (finish code u) := by rw [hu.frame]; rfl
  exact h.move ⟨rfl, hp, hin⟩
    ⟨hu.op.trans h.staged.op, hu.sPres.trans h.staged.pres, hu.sEcho.trans h.staged.echo⟩ honly

/-! ## READROM -/

/-- The registers READROM starts from: its acceptance has cleared ROMV (R46). -/
def romInvalid (s : State) : State := { s with status.romv := false }

/-- What READROM's end leaves for its commit: the code that RESULT will show as `r`, and where that is OK, the bytes
for ROM0 to ROM7. -/
structure RomEnded (r : Byte) (rom : Vector Byte 8) (t : State) : Prop where
  code : codeByte t.work.sCode = r
  sRom : r = 0x00#8 → t.work.sRom = rom

/-- The registers after READROM's commit of the code `r`: the bytes `rom` and ROMV = 1 only where that is OK (R28, R38,
R45). -/
def readromCommitted (m : LineCfg) (pres : Bool) (e r : Byte) (rom : Vector Byte 8) (l : List Input) (w : Work)
    (s : State) : State :=
  { s with
    inputs := l
    result := r
    status := { s.status with
      busy := false, cmderr := false, done := true, err := decide (r ≠ 0x00#8), pres := pres
      romv := decide (r = 0x00#8), lcfg := m }
    echo := e
    rom := if r = 0x00#8 then rom else s.rom
    work := w
    seq := .idle }

/-- READROM written while BUSY = 0 starts with its bus reset (R46, R170). -/
theorem step_starts_readrom (hb : s.status.busy = false) (hp : s.pend = .none)
    (h : s.inputs = hostWrite 0x00#5 0x06#8 :: rest) :
    ∃ t, step s = .next t ∧
      InCommand (romInvalid s) 0x6#4 s.status.lcfg s.status.pres s.echo (.cfgReset .rom) rest t :=
  ⟨_, step_accept (body := fun w => start (.cfgReset .rom) (romInvalid w)) (fun _ => rfl) hb h,
    ⟨rfl, hp, rfl⟩, ⟨rfl, rfl, rfl⟩, rfl⟩

/-- The code READROM's check ends with reads as `romResult` in RESULT (R170, R200). -/
theorem codeByte_romCheck (rom : Vector Byte 8) :
    codeByte (if romResult rom = 0x00#8 then .ok else .crcErr) = romResult rom := by
  by_cases hcrc : crc8 (rom.toList.take 7) = rom[7]
  · simp [romResult, hcrc, codeByte]
  · simp [romResult, hcrc, codeByte]

/-- READROM's eight reads and their check (R170). -/
theorem run_romBytes (echoes : Vector (Vector Byte 8) 8)
    (h : InCommand s op m pres e (.txByte (.romByte 0) 0) (readsScript echoes ++ rest) t) :
    ∃ u, run 256 t = .next u ∧ InCommand s op m pres e .commit rest u ∧
      RomEnded (romResult (bytesOf echoes)) (bytesOf echoes) u := by
  obtain ⟨w, hrun, hsame, hin, hrom, hseq⟩ := run_romReads echoes (k := 0) 7 rfl h.ready.seq h.ready.pend
    h.ready.inputs (fun _ _ hj => absurd hj (Nat.not_lt_zero _))
  rw [romCheck_eq (by simp [hseq]), hrom] at hrun
  exact ⟨_, hrun, h.finish_sameCommand hsame hin, codeByte_romCheck _, fun _ => hrom⟩

/-- READROM's commit, seen from the state it was accepted in (R45): the buffer and ROMV change only with the
code OK. -/
theorem run_commit_readrom {r : Byte} {rom : Vector Byte 8}
    (h : InCommand (romInvalid s) 0x6#4 m pres e .commit (.tick :: rest) t) (hend : RomEnded r rom t) :
    ∃ u, run 1 t = .next u ∧ u = readromCommitted m pres e r rom rest u.work s := by
  obtain ⟨rfl, hrom⟩ := hend
  refine ⟨_, run_commit_staged h.ready h.staged rfl rfl, ?_⟩
  have hbuf : (if codeByte t.work.sCode = 0x00#8 then t.work.sRom else s.rom) =
      if codeByte t.work.sCode = 0x00#8 then rom else s.rom := ite_congr rfl hrom fun _ => rfl
  have hromv : commitsRom 0x6#4 t.work.sCode = decide (codeByte t.work.sCode = 0x00#8) :=
    Bool.eq_iff_iff.2 (by simp [commitsRom_iff_codeByte])
  have htemp : commitsTemp 0x6#4 t.work.sCode = false := by simp [commitsTemp]
  have ht := h.only
  rw [OnlyWork] at ht
  rw [readromCommitted, ← hbuf, errOf_eq_decide, hromv, htemp, ht]
  simp [accepted, romInvalid]

/-- READROM from its acceptance to its commit, from what its calls do. -/
theorem run_readrom {n : Nat} {l : List Input} {r : Byte} {rom : Vector Byte 8} (hb : s.status.busy = false)
    (hp : s.pend = .none) (hin : s.inputs = hostWrite 0x00#5 0x06#8 :: l)
    (hrun : ∀ t, InCommand (romInvalid s) 0x6#4 s.status.lcfg s.status.pres s.echo (.cfgReset .rom) l t →
      ∃ u, run n t = .next u ∧ InCommand (romInvalid s) 0x6#4 m pres e .commit (.tick :: rest) u ∧
        RomEnded r rom u) :
    ∃ u, run (n + 2) s = .next u ∧ u = readromCommitted m pres e r rom rest u.work s := by
  obtain ⟨t, hstep, ht⟩ := step_starts_readrom hb hp hin
  obtain ⟨u, hcalls, hu, hend⟩ := hrun t ht
  obtain ⟨w, hcommit, hw⟩ := run_commit_readrom hu hend
  exact ⟨w, (run_step hstep (n + 1)).trans ((run_add hcalls 1).trans hcommit), hw⟩

/-- Settles O43: the bus reset, the command byte and the reads follow each other, and the check's code decides what
the commit copies. -/
theorem readromRuns : Obligations.ReadromRuns := by
  intro s e cmd echoes rest hb hp he0 heF hcmd hin
  refine run_readrom hb hp hin fun t ht => ?_
  obtain ⟨u, hreset, hu⟩ := ht.run_presence ((presence_iff e).2 ⟨he0, heF⟩) fun _ => rfl
  obtain ⟨v, hbyte, hr, hs, hv⟩ := run_command_confirmed hu.ready hu.staged rfl hcmd
    (fun _ _ => rfl) fun _ => rfl
  obtain ⟨w, hreads, hw⟩ := run_romBytes echoes (hu.move hr hs hv)
  exact ⟨w, (run_add hreset 288).trans ((run_add hbyte 256).trans hreads), hw⟩

/-- Settles O44: a code that is not OK leaves the buffer alone, and ROMV as the acceptance has cleared it. -/
theorem readromFailsFast : Obligations.ReadromFailsFast := by
  intro s e cmd rest hb hp
  refine ⟨fun he hin => ?_, fun he0 heF hcmd hin => ?_⟩
  · refine run_readrom (r := 0x01#8) (rom := s.rom) hb hp hin fun t ht => ?_
    obtain ⟨u, hreset, hu, hcode⟩ := ht.run_absence ((presence_false_iff e).2 he)
    exact ⟨u, hreset, hu, congrArg codeByte hcode, fun h => absurd h (by decide)⟩
  · refine run_readrom (r := 0x02#8) (rom := s.rom) hb hp hin fun t ht => ?_
    obtain ⟨u, hreset, hu⟩ := ht.run_presence ((presence_iff e).2 ⟨he0, heF⟩) fun _ => rfl
    obtain ⟨v, hbyte, hr, hs, hv, hcode⟩ := run_command_unconfirmed hu.ready hu.staged rfl hcmd
      fun _ _ => rfl
    exact ⟨v, (run_add hreset 32).trans hbyte, hu.move hr hs hv, congrArg codeByte hcode,
      fun h => absurd h (by decide)⟩

end Sys2Proof.Machine
end

section
/-! READTEMP (R180): its checks on one byte and on one reading (R181, R184), its six early ends, and its full path
with the nine reads and their checks, from the acceptance to the commit. -/

namespace Sys2Proof.Machine

open Sys2Proof.Safety

variable {s t u : State} {rest : List Input} {op : Nibble} {m : LineCfg} {pres : Bool} {e : Byte}

/-! ## The checks (R181, R184) -/

theorem cfgOk_iff (c : Byte) : cfgOk c = true ↔ c &&& 0x9F#8 = 0x1F#8 := beq_iff_eq

/-- Bits 6 and 5 are the two that the mask 0x9F leaves out. -/
theorem cfgOk_iff_bits (c : Byte) : cfgOk c = true ↔ c.getLsbD 7 = false ∧ c.extractLsb' 0 5 = 0x1F#5 := by
  revert c; decide

theorem cfgOk_iff_values (c : Byte) :
    cfgOk c = true ↔ c = 0x1F#8 ∨ c = 0x3F#8 ∨ c = 0x5F#8 ∨ c = 0x7F#8 := by
  revert c; decide

/-- Settles O47, by the mask and, over the 256 bytes, by the bits and the values it lets pass. -/
theorem configurationCheck : Obligations.ConfigurationCheck :=
  fun c => ⟨cfgOk_iff c, cfgOk_iff_bits c, cfgOk_iff_values c⟩

/-- 273.15 degrees are 4370.4 sixteenths of a degree, and no integer lies between -4370.4 and -4370. -/
theorem kelvin_nonneg_iff (n : ℤ) : (0 : ℚ) ≤ (n : ℚ) / 16 + 27315 / 100 ↔ -4370 ≤ n := by
  have hscaled : (0 : ℚ) ≤ (n : ℚ) / 16 + 27315 / 100 ↔ ((-43704 : ℤ) : ℚ) ≤ ((10 * n : ℤ) : ℚ) := by
    push_cast
    constructor <;> intro h <;> linarith
  rw [hscaled, Int.cast_le]
  omega

/-- Settles O48: the check is the bound, and the bound is the exact temperature's. -/
theorem absoluteZeroCheck : Obligations.AbsoluteZeroCheck :=
  fun t => ⟨aboveAbsZero_iff t, (aboveAbsZero_iff t).trans (kelvin_nonneg_iff t.toInt).symm⟩

/-! ## Command bytes and the Wait, of a running command -/

/-- A command byte of a running command that is confirmed (R128). -/
theorem InCommand.run_confirmed {c : ByteCall} {v : Vector Byte 8} {b : Byte} {go : State → State} {q : Seq}
    (h : InCommand s op m pres e (.txByte c 0) (byteScript v.toList ++ rest) t) (hc : c.command = some b)
    (hv : readback v.toList = b) (hd : ∀ r w, byteDone c r w = verify r go w)
    (hq : ∀ w, go w = { w with seq := q, work.b := (go w).work.b }) :
    ∃ u, run 32 t = .next u ∧ InCommand s op m pres e q rest u := by
  obtain ⟨u, hrun, hr, hs, hu⟩ := run_command_confirmed h.ready h.staged hc hv hd hq
  exact ⟨u, hrun, h.move hr hs hu⟩

/-- A command byte of a running command that is not confirmed ends it with NODEV_WRITE (R128). -/
theorem InCommand.run_unconfirmed {c : ByteCall} {v : Vector Byte 8} {b : Byte} {go : State → State}
    (h : InCommand s op m pres e (.txByte c 0) (byteScript v.toList ++ rest) t) (hc : c.command = some b)
    (hv : readback v.toList ≠ b) (hd : ∀ r w, byteDone c r w = verify r go w) :
    ∃ u, run 32 t = .next u ∧ InCommand s op m pres e .commit rest u ∧ u.work.sCode = .nodevWrite := by
  obtain ⟨u, hrun, hr, hs, hu, hcode⟩ := run_command_unconfirmed h.ready h.staged hc hv hd
  exact ⟨u, hrun, h.move hr hs hu, hcode⟩

/-- The Wait of a running command: beside the position, only the timer differs after it (R123). -/
theorem InCommand.run_wait {ms : Nat} (h : InCommand s op m pres e .wait (.tick :: .timer ms :: rest) t)
    (hms : 800 ≤ ms) :
    ∃ u, run 2 t = .next u ∧ InCommand { s with timer := .stopped } op m pres e (.cfgReset .temp2) rest u := by
  obtain ⟨u, hrun, hr, rfl⟩ := Machine.run_wait h.ready hms
  refine ⟨_, hrun, hr, ⟨h.staged.op, h.staged.pres, h.staged.echo⟩, ?_⟩
  have ht := h.only
  unfold OnlyWork at ht ⊢
  rw [ht]
  rfl

/-! ## Addressing the sensor (R180 steps 1 to 3 and 5 to 7) -/

/-- A part of READTEMP's pseudocode that addresses the sensor: the bus reset `c`, Skip-ROM in the call `skip`, the
command byte `b` in the call `cmd`, and `go` from there on to the position `q`. -/
structure Addresses (c : ResetCall) (skip cmd : ByteCall) (b : Byte) (go : State → State) (q : Seq) : Prop where
  reset : ∀ w, afterReset c w = goto (.txByte skip 0) w
  skipByte : skip.command = some 0xCC#8
  skipDone : ∀ r w, byteDone skip r w = verify r (goto (.txByte cmd 0)) w
  cmdByte : cmd.command = some b
  cmdDone : ∀ r w, byteDone cmd r w = verify r go w
  goesOn : ∀ w, go w = { w with seq := q, work.b := (go w).work.b }

theorem addresses_convert : Addresses .temp1 .tempSkip1 .tempConvert 0x44#8 (goto .wait) .wait :=
  ⟨fun _ => rfl, rfl, fun _ _ => rfl, rfl, fun _ _ => rfl, fun _ => rfl⟩

theorem addresses_readSp : Addresses .temp2 .tempSkip2 .tempReadSp 0xBE#8 (enterByte (.tempByte 0) 0xFF#8)
    (.txByte (.tempByte 0) 0) :=
  ⟨fun _ => rfl, rfl, fun _ _ => rfl, rfl, fun _ _ => rfl, fun _ => rfl⟩

section
variable {c : ResetCall} {skip cmd : ByteCall} {b : Byte} {go : State → State} {q : Seq} {e' : Byte}
  {c1 c2 : Vector Byte 8}

/-- Presence is seen and Skip-ROM confirmed. -/
theorem Addresses.run_skipped (ha : Addresses c skip cmd b go q)
    (h : InCommand s op m pres e (.cfgReset c) (resetScript e' ++ (byteScript c1.toList ++ rest)) t)
    (he : presence e' = true) (hc1 : readback c1.toList = 0xCC#8) :
    ∃ u, run 38 t = .next u ∧ InCommand s op .normal true e' (.txByte cmd 0) rest u := by
  obtain ⟨u, hreset, hu⟩ := h.run_presence he ha.reset
  obtain ⟨v, hskip, hv⟩ := hu.run_confirmed ha.skipByte hc1 ha.skipDone fun _ => rfl
  exact ⟨v, (run_add hreset 32).trans hskip, hv⟩

/-- Presence is seen, but Skip-ROM not confirmed. -/
theorem Addresses.run_notSkipped (ha : Addresses c skip cmd b go q)
    (h : InCommand s op m pres e (.cfgReset c) (resetScript e' ++ (byteScript c1.toList ++ rest)) t)
    (he : presence e' = true) (hc1 : readback c1.toList ≠ 0xCC#8) :
    ∃ u, run 38 t = .next u ∧ InCommand s op .normal true e' .commit rest u ∧
      u.work.sCode = .nodevWrite := by
  obtain ⟨u, hreset, hu⟩ := h.run_presence he ha.reset
  obtain ⟨v, hskip, hv, hcode⟩ := hu.run_unconfirmed ha.skipByte hc1 ha.skipDone
  exact ⟨v, (run_add hreset 32).trans hskip, hv, hcode⟩

/-- Presence is seen, and Skip-ROM and the command byte are confirmed. -/
theorem Addresses.run_commanded (ha : Addresses c skip cmd b go q)
    (h : InCommand s op m pres e (.cfgReset c)
      (resetScript e' ++ (byteScript c1.toList ++ (byteScript c2.toList ++ rest))) t)
    (he : presence e' = true) (hc1 : readback c1.toList = 0xCC#8) (hc2 : readback c2.toList = b) :
    ∃ u, run 70 t = .next u ∧ InCommand s op .normal true e' q rest u := by
  obtain ⟨u, hskip, hu⟩ := ha.run_skipped h he hc1
  obtain ⟨v, hcmd, hv⟩ := hu.run_confirmed ha.cmdByte hc2 ha.cmdDone ha.goesOn
  exact ⟨v, (run_add hskip 32).trans hcmd, hv⟩

/-- Presence is seen and Skip-ROM confirmed, but the command byte is not. -/
theorem Addresses.run_notCommanded (ha : Addresses c skip cmd b go q)
    (h : InCommand s op m pres e (.cfgReset c)
      (resetScript e' ++ (byteScript c1.toList ++ (byteScript c2.toList ++ rest))) t)
    (he : presence e' = true) (hc1 : readback c1.toList = 0xCC#8) (hc2 : readback c2.toList ≠ b) :
    ∃ u, run 70 t = .next u ∧ InCommand s op .normal true e' .commit rest u ∧
      u.work.sCode = .nodevWrite := by
  obtain ⟨u, hskip, hu⟩ := ha.run_skipped h he hc1
  obtain ⟨v, hcmd, hv, hcode⟩ := hu.run_unconfirmed ha.cmdByte hc2 ha.cmdDone
  exact ⟨v, (run_add hskip 32).trans hcmd, hv, hcode⟩

end

/-- READTEMP's conversion: the sensor is addressed and told to convert, and the Wait ends (R180 steps 1 to 4). -/
theorem run_conversion {e1 : Byte} {c1 c2 : Vector Byte 8} {ms : Nat}
    (h : InCommand s op m pres e (.cfgReset .temp1) (resetScript e1 ++ (byteScript c1.toList ++
      (byteScript c2.toList ++ (.tick :: .timer ms :: rest)))) t)
    (he : presence e1 = true) (hc1 : readback c1.toList = 0xCC#8) (hc2 : readback c2.toList = 0x44#8)
    (hms : 800 ≤ ms) :
    ∃ u, run 72 t = .next u ∧
      InCommand { s with timer := .stopped } op .normal true e1 (.cfgReset .temp2) rest u := by
  obtain ⟨u, hconv, hu⟩ := addresses_convert.run_commanded h he hc1 hc2
  obtain ⟨v, hwait, hv⟩ := hu.run_wait hms
  exact ⟨v, (run_add hconv 2).trans hwait, hv⟩

/-! ## READTEMP -/

/-- The registers while READTEMP runs: its acceptance has cleared TEMPV (R46), and the timer is `tm`. -/
def tempInvalid (tm : Timer) (s : State) : State := { s with status.tempv := false, timer := tm }

/-- What READTEMP's end leaves for its commit: the code that RESULT will show as `r`, and where that is OK, the bytes
for SP0 to SP8. -/
structure TempEnded (r : Byte) (sp : Vector Byte 9) (t : State) : Prop where
  code : codeByte t.work.sCode = r
  sSp : r = 0x00#8 → t.work.sSp = sp

/-- The registers after READTEMP's commit of the code `r`, with the timer at `tm`: the bytes `sp` and TEMPV = 1 only
where that is OK (R29, R39, R45). -/
def readtempCommitted (tm : Timer) (pres : Bool) (e r : Byte) (sp : Vector Byte 9) (l : List Input) (w : Work)
    (s : State) : State :=
  { s with
    inputs := l
    result := r
    status := { s.status with
      busy := false, cmderr := false, done := true, err := decide (r ≠ 0x00#8), pres := pres
      tempv := decide (r = 0x00#8), lcfg := .normal }
    echo := e
    sp := if r = 0x00#8 then sp else s.sp
    work := w
    timer := tm
    seq := .idle }

/-- READTEMP written while BUSY = 0 starts with its first bus reset (R46, R180). -/
theorem step_starts_readtemp (hb : s.status.busy = false) (hp : s.pend = .none)
    (h : s.inputs = hostWrite 0x00#5 0x07#8 :: rest) :
    ∃ t, step s = .next t ∧
      InCommand (tempInvalid s.timer s) 0x7#4 s.status.lcfg s.status.pres s.echo (.cfgReset .temp1) rest t :=
  ⟨_, step_accept (body := fun w => start (.cfgReset .temp1) (tempInvalid w.timer w)) (fun _ => rfl) hb h,
    ⟨rfl, hp, rfl⟩, ⟨rfl, rfl, rfl⟩, rfl⟩

/-- READTEMP's nine reads and their checks (R180 steps 8 to 12). -/
theorem run_tempBytes (echoes : Vector (Vector Byte 8) 9)
    (h : InCommand s op m pres e (.txByte (.tempByte 0) 0) (readsScript echoes ++ rest) t) :
    ∃ u, run 288 t = .next u ∧ InCommand s op m pres e .commit rest u ∧
      TempEnded (tempResult (bytesOf echoes)) (bytesOf echoes) u := by
  obtain ⟨w, hrun, hsame, hin, hsp, hseq⟩ := run_tempReads echoes (k := 0) 8 rfl h.ready.seq h.ready.pend
    h.ready.inputs (fun _ _ hj => absurd hj (Nat.not_lt_zero _))
  obtain ⟨code, hcode, hcheck⟩ := tempCheck_eq (s := w) (by simp [hseq])
  rw [hcheck] at hrun
  rw [hsp] at hcode
  exact ⟨_, hrun, h.finish_sameCommand hsame hin, hcode, fun _ => hsp⟩

/-- READTEMP's commit, seen from the state it was accepted in (R45): the buffer and TEMPV change only with the
code OK. -/
theorem run_commit_readtemp {tm : Timer} {r : Byte} {sp : Vector Byte 9}
    (h : InCommand (tempInvalid tm s) 0x7#4 .normal pres e .commit (.tick :: rest) t) (hend : TempEnded r sp t) :
    ∃ u, run 1 t = .next u ∧ u = readtempCommitted tm pres e r sp rest u.work s := by
  obtain ⟨rfl, hsp⟩ := hend
  refine ⟨_, run_commit_staged h.ready h.staged rfl rfl, ?_⟩
  have hbuf : (if codeByte t.work.sCode = 0x00#8 then t.work.sSp else s.sp) =
      if codeByte t.work.sCode = 0x00#8 then sp else s.sp := ite_congr rfl hsp fun _ => rfl
  have htempv : commitsTemp 0x7#4 t.work.sCode = decide (codeByte t.work.sCode = 0x00#8) :=
    Bool.eq_iff_iff.2 (by simp [commitsTemp_iff_codeByte])
  have hrom : commitsRom 0x7#4 t.work.sCode = false := by simp [commitsRom]
  have ht := h.only
  rw [OnlyWork] at ht
  rw [readtempCommitted, ← hbuf, errOf_eq_decide, htempv, hrom, ht]
  simp [accepted, tempInvalid]

/-- READTEMP from its acceptance to its commit, from what its calls do. -/
theorem run_readtemp {n : Nat} {l : List Input} {tm : Timer} {r : Byte} {sp : Vector Byte 9}
    (hb : s.status.busy = false) (hp : s.pend = .none) (hin : s.inputs = hostWrite 0x00#5 0x07#8 :: l)
    (hrun : ∀ t,
      InCommand (tempInvalid s.timer s) 0x7#4 s.status.lcfg s.status.pres s.echo (.cfgReset .temp1) l t →
      ∃ u, run n t = .next u ∧ InCommand (tempInvalid tm s) 0x7#4 .normal pres e .commit (.tick :: rest) u ∧
        TempEnded r sp u) :
    ∃ u, run (n + 2) s = .next u ∧ u = readtempCommitted tm pres e r sp rest u.work s := by
  obtain ⟨t, hstep, ht⟩ := step_starts_readtemp hb hp hin
  obtain ⟨u, hcalls, hu, hend⟩ := hrun t ht
  obtain ⟨w, hcommit, hw⟩ := run_commit_readtemp hu hend
  exact ⟨w, (run_step hstep (n + 1)).trans ((run_add hcalls 1).trans hcommit), hw⟩

/-- READTEMP that ends with a failure's code: SP0 to SP8 keep their values, and TEMPV stays 0 (R29, R39). -/
theorem run_readtemp_failed {n : Nat} {l : List Input} {tm : Timer} {code : ResultCode} (hcode : code ≠ .ok)
    (hb : s.status.busy = false) (hp : s.pend = .none) (hin : s.inputs = hostWrite 0x00#5 0x07#8 :: l)
    (hrun : ∀ t,
      InCommand (tempInvalid s.timer s) 0x7#4 s.status.lcfg s.status.pres s.echo (.cfgReset .temp1) l t →
      ∃ u, run n t = .next u ∧ InCommand (tempInvalid tm s) 0x7#4 .normal pres e .commit (.tick :: rest) u ∧
        u.work.sCode = code) :
    ∃ u, run (n + 2) s = .next u ∧ u = { s with
      inputs := rest
      result := codeByte code
      status := { s.status with
        busy := false, cmderr := false, done := true, err := true, pres := pres, tempv := false
        lcfg := .normal }
      echo := e
      work := u.work
      timer := u.timer
      seq := .idle } ∧ u.timer = tm := by
  have hne : codeByte code ≠ 0x00#8 := fun h => hcode ((codeByte_eq_zero_iff code).1 h)
  obtain ⟨u, hend, hu⟩ := run_readtemp (tm := tm) (pres := pres) (e := e) (r := codeByte code) (sp := s.sp)
    (rest := rest) hb hp hin fun t ht => by
      obtain ⟨u, hcalls, hu, rfl⟩ := hrun t ht
      exact ⟨u, hcalls, hu, rfl, fun h => absurd h hne⟩
  have htm : u.timer = tm := by rw [hu]; rfl
  refine ⟨u, hend, ?_, htm⟩
  rw [htm]
  simpa [readtempCommitted, hne] using hu

/-- Settles O45: the conversion, the second addressing and the reads follow each other, and the checks' code decides
what the commit copies. -/
theorem readtempRuns : Obligations.ReadtempRuns := by
  intro s e1 e2 c1 c2 c3 c4 ms echoes rest hb hp he10 he1F he20 he2F hc1 hc2 hc3 hc4 hms hin
  refine run_readtemp hb hp hin fun t ht => ?_
  obtain ⟨u, hconv, hu⟩ := run_conversion ht ((presence_iff e1).2 ⟨he10, he1F⟩) hc1 hc2 hms
  obtain ⟨v, haddr, hv⟩ := addresses_readSp.run_commanded hu ((presence_iff e2).2 ⟨he20, he2F⟩) hc3 hc4
  obtain ⟨w, hreads, hw⟩ := run_tempBytes echoes hv
  exact ⟨w, (run_add hconv 358).trans ((run_add haddr 288).trans hreads), hw⟩

/-- Settles O46: the three early ends of addressing the sensor, met before the Wait and after it. -/
theorem readtempFailsFast : Obligations.ReadtempFailsFast := by
  intro s e1 e2 c1 c2 c3 c4 ms rest hb hp failed
  refine ⟨fun he1 hin => ?noPresence1, fun h10 h1F hc1 hin => ?noSkip1, fun h10 h1F hc1 hc2 hin => ?noConvert,
    fun h10 h1F hc1 hc2 hms he2 hin => ?noPresence2, fun h10 h1F hc1 hc2 hms h20 h2F hc3 hin => ?noSkip2,
    fun h10 h1F hc1 hc2 hms h20 h2F hc3 hc4 hin => ?noReadSp⟩
  case noPresence1 =>
    exact run_readtemp_failed (by decide) hb hp hin fun _ ht => ht.run_absence ((presence_false_iff e1).2 he1)
  case noSkip1 =>
    exact run_readtemp_failed (by decide) hb hp hin fun _ ht =>
      addresses_convert.run_notSkipped ht ((presence_iff e1).2 ⟨h10, h1F⟩) hc1
  case noConvert =>
    exact run_readtemp_failed (by decide) hb hp hin fun _ ht =>
      addresses_convert.run_notCommanded ht ((presence_iff e1).2 ⟨h10, h1F⟩) hc1 hc2
  case noPresence2 =>
    refine run_readtemp_failed (code := .nodevReset) (by decide) hb hp hin fun t ht => ?_
    obtain ⟨u, hconv, hu⟩ := run_conversion ht ((presence_iff e1).2 ⟨h10, h1F⟩) hc1 hc2 hms
    obtain ⟨v, hreset, hv⟩ := hu.run_absence ((presence_false_iff e2).2 he2)
    exact ⟨v, (run_add hconv 6).trans hreset, hv⟩
  case noSkip2 =>
    refine run_readtemp_failed (code := .nodevWrite) (by decide) hb hp hin fun t ht => ?_
    obtain ⟨u, hconv, hu⟩ := run_conversion ht ((presence_iff e1).2 ⟨h10, h1F⟩) hc1 hc2 hms
    obtain ⟨v, hskip, hv⟩ := addresses_readSp.run_notSkipped hu ((presence_iff e2).2 ⟨h20, h2F⟩) hc3
    exact ⟨v, (run_add hconv 38).trans hskip, hv⟩
  case noReadSp =>
    refine run_readtemp_failed (code := .nodevWrite) (by decide) hb hp hin fun t ht => ?_
    obtain ⟨u, hconv, hu⟩ := run_conversion ht ((presence_iff e1).2 ⟨h10, h1F⟩) hc1 hc2 hms
    obtain ⟨v, hcmd, hv⟩ := addresses_readSp.run_notCommanded hu ((presence_iff e2).2 ⟨h20, h2F⟩) hc3 hc4
    exact ⟨v, (run_add hconv 70).trans hcmd, hv⟩

end Sys2Proof.Machine
end

section
/-! Reset and late answers: an answer that fits no outstanding request is ignored (R240), and every register takes
its reset value, at power-on and by block reset (R241). -/

namespace Sys2Proof.Machine

/-! ## Late answers (R240) -/

/-- Settles O34, by the kind of answer: each is ignored where its own request is not outstanding. -/
theorem unaskedAnswersAreIgnored : Obligations.UnaskedAnswersAreIgnored := by
  rintro s rest i hin (⟨⟨a, rfl⟩, hp⟩ | ⟨⟨a, rfl⟩, hp⟩ | ⟨⟨ms, rfl⟩, hp⟩)
  · exact step_tx_ignored hin hp
  · exact step_rx_ignored hin hp
  · exact step_timer_ignored hin hp

/-! ## Reset values (R241) -/

theorem statusByte_reset : statusByte Status.reset = 0x00#8 := by decide

/-- By the branches of `readReg`: STATUS is all flags 0, the other registers and the buffers are 0x00, and the rest
of the window reads 0x00 in every state. -/
theorem readReg_reset (off : Offset) : readReg off State.reset = 0x00#8 := by
  unfold readReg
  split_ifs
  case pos => exact statusByte_reset
  case pos | pos | pos | pos | pos => rfl
  case pos | pos => exact Vector.getElem_replicate _
  case neg => rfl

/-- Settles O50: the step is `blockReset`, whose registers are those of `State.reset` whatever the state was. -/
theorem blockResetValues : Obligations.BlockResetValues := fun _ _ hin =>
  ⟨_, step_blockReset hin, rfl, statusByte_reset, rfl, rfl, rfl, rfl, rfl, fun k => Vector.getElem_replicate k.isLt,
    fun k => Vector.getElem_replicate k.isLt, rfl, rfl, rfl, rfl, rfl⟩

/-- Settles O52: a block at rest with no flag set, so that the clauses about the flags are vacuous. -/
theorem invAtReset : Obligations.InvAtReset :=
  invariant_of_idle rfl rfl rfl rfl rfl nofun nofun (Nat.zero_le 8) nofun nofun

/-- Settles O51: at rest and under the invariant, the block stays as it is when its script is empty. -/
theorem resetState : Obligations.ResetState :=
  have hstay : step State.reset = .next State.reset := (idleBlockKeepsItsResults _ invAtReset rfl).1 rfl
  ⟨readReg_reset, rfl, rfl, rfl, rfl, hstay⟩

end Sys2Proof.Machine
end

section
/-! Decoding and encoding are inverse to each other (R91, R93, R95, R98): the decoder gives the one well-formed
instruction whose encoding the code is. -/

namespace Sys2Proof.Machine

variable {v b : Byte} {i : Instr}

/-! ## The ranges of the illegal CMD bytes (R93) -/

/-- A byte's value is at least `2 ^ n` when it has a bit set from bit `n` on. -/
theorem two_pow_le_toNat_iff {n : Nat} : 2 ^ n ≤ v.toNat ↔ ∃ k, n ≤ k ∧ k < 8 ∧ v.getLsbD k = true :=
  ⟨fun h =>
    have ⟨k, hn, hk⟩ := Nat.exists_ge_and_testBit_of_ge_two_pow h
    ⟨k, hn, BitVec.lt_of_getLsbD hk, hk⟩,
   fun ⟨_, hn, _, hk⟩ => (Nat.pow_le_pow_right Nat.two_pos hn).trans (Nat.ge_two_pow_of_testBit hk)⟩

/-- The four RSV bits are those from weight 16 on. -/
theorem sixteen_le_toNat_iff : 16 ≤ v.toNat ↔
    v.getLsbD 4 = true ∨ v.getLsbD 5 = true ∨ v.getLsbD 6 = true ∨ v.getLsbD 7 = true := by
  refine (two_pow_le_toNat_iff (n := 4)).trans ⟨fun ⟨k, hn, hk, hbit⟩ => ?_, ?_⟩
  · interval_cases k <;> simp [hbit]
  · rintro (h | h | h | h)
    exacts [⟨4, by decide, by decide, h⟩, ⟨5, by decide, by decide, h⟩, ⟨6, by decide, by decide, h⟩,
      ⟨7, by decide, by decide, h⟩]

/-- The row of ILLCMD.OPC is the bytes 0x08 to 0x0F. -/
theorem opcRow_iff : v &&& 0xF8#8 = 0x08#8 ↔ 8 ≤ v.toNat ∧ v.toNat < 16 := by
  revert v; decide

/-! ## CMD bytes (R91, R93) -/

/-- From 0x08 on only the decoder's last five tests count. -/
theorem decodeCmd_of_le (h : 8 ≤ v.toNat) : decodeCmd v =
    if v &&& 0xF8#8 = 0x08#8 then .illcmdOpc v
    else if v.getLsbD 4 then .illcmdRsv4 v
    else if v.getLsbD 5 then .illcmdRsv5 v
    else if v.getLsbD 6 then .illcmdRsv6 v
    else .illcmdRsv7 v := by
  have hne (k : Byte) (hk : k.toNat < 8) : v ≠ k := by rintro rfl; omega
  simp only [decodeCmd, hne, BitVec.reduceToNat, Nat.reduceLT, if_false]

theorem decodeCmd_of_sixteen_le (h : 16 ≤ v.toNat) : decodeCmd v =
    if v.getLsbD 4 then .illcmdRsv4 v
    else if v.getLsbD 5 then .illcmdRsv5 v
    else if v.getLsbD 6 then .illcmdRsv6 v
    else .illcmdRsv7 v := by
  rw [decodeCmd_of_le (by omega), if_neg fun hopc => by have := opcRow_iff.1 hopc; omega]

theorem encode_illcmd (h : IsIllcmd v i) : encode i = .write 0x00#5 v := by
  rcases h with rfl | rfl | rfl | rfl | rfl <;> rfl

/-- The rows of ILLCMD overlap, but only the one the decoder chooses is well formed (log 12). -/
theorem decodeCmd_of_wf_illcmd (h : IsIllcmd v i) (hw : i.wf = true) : decodeCmd v = i := by
  rcases h with rfl | rfl | rfl | rfl | rfl
  case inl =>
    have hopc : v &&& 0xF8#8 = 0x08#8 := beq_iff_eq.1 hw
    rw [decodeCmd_of_le (opcRow_iff.1 hopc).1, if_pos hopc]
  all_goals
    simp only [Instr.wf, Bool.and_eq_true, Bool.not_eq_true'] at hw
    have h16 : 16 ≤ v.toNat := sixteen_le_toNat_iff.2 (by simp only [hw, true_or, or_true])
    simp only [decodeCmd_of_sixteen_le h16, hw, Bool.false_eq_true, if_false, if_true]

/-- An illegal byte is read as the first row that matches it; RSV7 is what remains when no other row does. -/
theorem wf_decodeCmd_of_le (h : 8 ≤ v.toNat) : (decodeCmd v).wf = true := by
  rw [decodeCmd_of_le h]
  split_ifs with hopc h4 h5 h6
  · exact beq_iff_eq.2 hopc
  · exact h4
  · simp only [Instr.wf, h4, h5, Bool.not_false, Bool.and_self]
  · simp only [Instr.wf, h4, h5, h6, Bool.not_false, Bool.and_self]
  · have h16 : 16 ≤ v.toNat := Nat.le_of_not_lt fun hlt => hopc (opcRow_iff.2 ⟨h, hlt⟩)
    have h7 : v.getLsbD 7 = true :=
      (((sixteen_le_toNat_iff.1 h16).resolve_left h4).resolve_left h5).resolve_left h6
    simp only [Instr.wf, h4, h5, h6, h7, Bool.not_false, Bool.and_self]

/-- The eight commands by evaluation, the illegal bytes by their rows. -/
theorem wf_and_encode_decodeCmd (v : Byte) : (decodeCmd v).wf = true ∧ encode (decodeCmd v) = .write 0x00#5 v := by
  obtain hlt | hle := Nat.lt_or_ge v.toNat 8
  · obtain ⟨n, hn, rfl⟩ : ∃ n, n < 8 ∧ v = BitVec.ofNat 8 n := ⟨v.toNat, hlt, by simp⟩
    interval_cases n <;> exact ⟨rfl, rfl⟩
  · exact ⟨wf_decodeCmd_of_le hle, encode_illcmd (isIllcmd_decodeCmd hle)⟩

/-! ## Frames and command bytes (R95, R98) -/

theorem wf_and_encode_of_decodeFrame (h : decodeFrame b = .ok i) : i.wf = true ∧ encode i = .frame b := by
  unfold decodeFrame at h
  split_ifs at h with hb hb hb
  all_goals cases h; exact ⟨rfl, hb ▸ rfl⟩

theorem wf_and_encode_of_decodeWire (h : decodeWire b = .ok i) : i.wf = true ∧ encode i = .wire b := by
  unfold decodeWire at h
  split_ifs at h with hb hb hb hb
  all_goals cases h; exact ⟨rfl, hb ▸ rfl⟩

/-! ## The round trips -/

/-- Settles O2: the rows with a fixed byte or a free one decode by evaluation, the ILLCMD rows by their
well-formedness. -/
theorem decodeOfEncodeIsTheInstruction : Obligations.DecodeOfEncodeIsTheInstruction := by
  intro i hw
  have hillcmd {v : Byte} (h : IsIllcmd v i) : decode (encode i) = .ok i := by
    rw [encode_illcmd h]
    exact congrArg Except.ok (decodeCmd_of_wf_illcmd h hw)
  cases i with
  | illcmdOpc v => exact hillcmd (.inl rfl)
  | illcmdRsv4 v => exact hillcmd (.inr (.inl rfl))
  | illcmdRsv5 v => exact hillcmd (.inr (.inr (.inl rfl)))
  | illcmdRsv6 v => exact hillcmd (.inr (.inr (.inr (.inl rfl))))
  | illcmdRsv7 v => exact hillcmd (.inr (.inr (.inr (.inr rfl))))
  | _ => rfl

/-- Settles O3, by the place a code stands in: an access, a frame or a command byte. -/
theorem encodeOfDecodeIsTheCode : Obligations.EncodeOfDecodeIsTheCode := by
  intro c i h
  cases c with
  | write off v =>
    simp only [decode] at h
    split_ifs at h with h0 h6 h7 <;> cases h
    · exact h0 ▸ wf_and_encode_decodeCmd v
    · exact ⟨rfl, h6 ▸ rfl⟩
    · exact ⟨rfl, h7 ▸ rfl⟩
  | read off =>
    simp only [decode] at h
    split_ifs at h with h6
    cases h
    exact ⟨rfl, h6 ▸ rfl⟩
  | frame b => exact wf_and_encode_of_decodeFrame h
  | wire b => exact wf_and_encode_of_decodeWire h

end Sys2Proof.Machine
end
